-- ==== Sys2Proof/Word.lean ====
section
/-! DEFINITION. The word types of ch-siphash CORE (spec 00_scope R8, R9: unsigned values of a stated width). -/

namespace Sys2Proof

/-- A 64-bit word: state words, m, key words, inlen, ptr, digest, host registers (R20, R32). -/
abbrev Word := BitVec 64

/-- A message byte (R60). -/
abbrev Byte := BitVec 8

/-- A micro-ROM address: the width of upc and lr (R26, R27). -/
abbrev MicroAddr := BitVec 6

/-- A control word (R90). -/
abbrev ControlWord := BitVec 16

end Sys2Proof
end

