-- ==== Sys2Proof/Machine/Bits.lean ====
section
/-! DEFINITION. Word operations of the notation: addition, rotation, zero extension, little-endian packing
(00_scope R9, R11, R12, R13; 20_memory R69). -/

namespace Sys2Proof.Machine

/-- Addition modulo 2^64, carry out discarded (R11). -/
def add64 (a b : Word) : Word := a + b

/-- Circular left shift by n, 0 ≤ n ≤ 63 (R12), as R12 writes it. -/
def rotl64 (x : Word) (n : BitVec 6) : Word :=
  if n = 0 then x else (x <<< n.toNat) ||| (x >>> (64 - n.toNat))

/-- `zext_64` of an 8-bit value (R9, R95). -/
def zext64 (b : BitVec 8) : Word := b.setWidth 64

/-- Bytes, lowest offset first, packed from byte position i up: the byte from offset off + j goes to bits
8*(i+j)+7 .. 8*(i+j) (R13, R65, R69). -/
def packLE : Nat → List Byte → Word
  | _, [] => 0
  | i, b :: bs => (zext64 b <<< (8 * i)) ||| packLE (i + 1) bs

/-- `LE64` (R13): the little-endian decode of eight bytes. -/
def le64 (bytes : List Byte) : Word := packLE 0 bytes

/-- `inlen mod 8 = inlen[2:0]` (R137, R181). -/
def leftOf (inlen : Word) : Nat := (inlen.extractLsb' 0 3).toNat

/-- `zext_64(inlen[7:0]) << 56`: the length byte on top (R180, R181). -/
def lengthByte (inlen : Word) : Word := zext64 (inlen.extractLsb' 0 8) <<< 56

end Sys2Proof.Machine
end

