-- ==== Sys2Proof/Config.lean ====
section
/-! DEFINITION. What is fixed for one machine and what the spec leaves open as a value.
The spec's open parameters MSG, BUFLEN and the schedule (R30, 92 "Open parameters") are data in State, so that every
statement ranges over all of them; MSG_BASE and the register base are read by no rule (R74). -/

namespace Sys2Proof

/-- Free values: what the reset input leaves in v0..v3, m, ptr and lr, which R44 and R270 call unspecified.
No body, so no proof can see a value of it; the argument is the counter `State.draws` (log 3). DESIGN CHOICE. -/
opaque Config.unspecified : Nat → Word

/-- Width in bytes of a legal host access (R38: 64 bits). -/
def Config.hostAccessBytes : Nat := 8

/-- How many offsets the 64-bit message offsets can name (R60: "offsets are 64-bit"). -/
def Config.offsetSpace : Nat := 2 ^ 64

end Sys2Proof
end

