-- ==== Sys2Proof/Syntax.lean ====
section
/-! DEFINITION. The SIPU micro-operation set: one constructor per row of spec/opcode_table.json (30_encoding R93).
Every operand field has exactly the width the encoding gives it (R94 to R97), so every term is an encodable
instruction; what can be ill-formed is a control word (WellFormed.lean). -/

namespace Sys2Proof

/-- The four state words, numbered 0 to 3 in control words (10_state R21, 30_encoding R97). -/
inductive VReg where
  | v0
  | v1
  | v2
  | v3
deriving DecidableEq, Repr

/-- The fifteen micro-operations (R93, R102). -/
inductive Instr where
  | wait
  | init
  | ldw
  | ldp
  | xorm (rd : VReg)
  | xori (rd : VReg) (imm : BitVec 8)
  | add (rd rs : VReg)
  | rotl (rd : VReg) (n : BitVec 6)
  | xor (rd rs : VReg)
  | red
  | halt
  | bfw (t : MicroAddr)
  | jmp (t : MicroAddr)
  | call (t : MicroAddr)
  | ret
deriving DecidableEq, Repr

end Sys2Proof
end

