-- ==== Sys2Proof/WellFormed.lean ====
section
/-! DEFINITION. Which control words are well formed: the six formats of 30_encoding R92 and their must-be-zero
fields (R98, R99). Decode.lean tests the mask and match pairs of R93 instead, so the two say the same thing in two
ways; an `Instr` is well formed by its type. -/

namespace Sys2Proof

/-- The six formats (R92). -/
inductive Format where
  | z
  | r
  | s
  | m
  | i
  | b
deriving DecidableEq, Repr

/-- The format of an operation code (R93); op = 0x0 has none (R99). -/
def formatOf (op : BitVec 4) : Option Format :=
  match op.toNat with
  | 0x1 => some .z
  | 0x2 => some .z
  | 0x3 => some .z
  | 0x4 => some .z
  | 0x5 => some .m
  | 0x6 => some .i
  | 0x7 => some .r
  | 0x8 => some .s
  | 0x9 => some .r
  | 0xA => some .z
  | 0xB => some .z
  | 0xC => some .b
  | 0xD => some .b
  | 0xE => some .b
  | 0xF => some .z
  | _ => none

/-- The bits of a control word that a format requires to be zero (R92, column "must be zero"). -/
def mustBeZero : Format → ControlWord
  | .z => 0x0FFF
  | .r => 0x00FF
  | .s => 0x03C0
  | .m => 0x03FF
  | .i => 0x0300
  | .b => 0x0FC0

/-- First check: the operation code is not the reserved 0x0 (R99). -/
def opcodeAssigned (w : ControlWord) : Bool := w.extractLsb' 12 4 != 0

/-- Second check, one for each format: no 1 in a must-be-zero bit (R98). -/
def zerosRespected (w : ControlWord) : Bool :=
  match formatOf (w.extractLsb' 12 4) with
  | some f => w &&& mustBeZero f == 0
  | none => true

/-- A control word that is not reserved (R98, R99). -/
def wellFormedWord (w : ControlWord) : Bool := opcodeAssigned w && zerosRespected w

/-- The format an instruction is written in (R92, column "used by"). -/
def formatOfInstr : Instr → Format
  | .wait => .z
  | .init => .z
  | .ldw => .z
  | .ldp => .z
  | .xorm _ => .m
  | .xori _ _ => .i
  | .add _ _ => .r
  | .rotl _ _ => .s
  | .xor _ _ => .r
  | .red => .z
  | .halt => .z
  | .bfw _ => .b
  | .jmp _ => .b
  | .call _ => .b
  | .ret => .z

end Sys2Proof
end

