-- ==== Sys2Proof/Decode.lean ====
section
/-! DEFINITION. Decoder and encoder of control words (30_encoding R91, R93, R98, R99, R102). -/

namespace Sys2Proof

/-- Why a control word is reserved: its op is 0x0 (R99), or a must-be-zero bit is 1 (R98). -/
inductive Reserved where
  | opcodeZero
  | mustBeZero
deriving DecidableEq, Repr

/-- The sixteen outcomes of decode: an instruction, or "reserved" with its reason (R102). -/
inductive Decoded where
  | instr (i : Instr)
  | reserved (why : Reserved)
deriving DecidableEq, Repr

/-- One row of the opcode map: the `match` and `mask` columns of R93. -/
structure OpcodeRow where
  pattern : ControlWord
  mask : ControlWord
deriving DecidableEq, Repr

def rowWait : OpcodeRow := { pattern := 0x1000, mask := 0xFFFF }
def rowInit : OpcodeRow := { pattern := 0x2000, mask := 0xFFFF }
def rowLdw : OpcodeRow := { pattern := 0x3000, mask := 0xFFFF }
def rowLdp : OpcodeRow := { pattern := 0x4000, mask := 0xFFFF }
def rowXorm : OpcodeRow := { pattern := 0x5000, mask := 0xF3FF }
def rowXori : OpcodeRow := { pattern := 0x6000, mask := 0xF300 }
def rowAdd : OpcodeRow := { pattern := 0x7000, mask := 0xF0FF }
def rowRotl : OpcodeRow := { pattern := 0x8000, mask := 0xF3C0 }
def rowXor : OpcodeRow := { pattern := 0x9000, mask := 0xF0FF }
def rowRed : OpcodeRow := { pattern := 0xA000, mask := 0xFFFF }
def rowHalt : OpcodeRow := { pattern := 0xB000, mask := 0xFFFF }
def rowBfw : OpcodeRow := { pattern := 0xC000, mask := 0xFFC0 }
def rowJmp : OpcodeRow := { pattern := 0xD000, mask := 0xFFC0 }
def rowCall : OpcodeRow := { pattern := 0xE000, mask := 0xFFC0 }
def rowRet : OpcodeRow := { pattern := 0xF000, mask := 0xFFFF }

/-- The fifteen rows of R93 in the table's order. -/
def opcodeRows : List OpcodeRow :=
  [rowWait, rowInit, rowLdw, rowLdp, rowXorm, rowXori, rowAdd, rowRotl, rowXor, rowRed, rowHalt, rowBfw, rowJmp,
    rowCall, rowRet]

/-- "A word w is the instruction of a row when w AND mask = match" (R93). -/
def rowHit (r : OpcodeRow) (w : ControlWord) : Bool := w &&& r.mask == r.pattern

/-- Field op, bits 15:12 (R91). -/
def fieldOp (w : ControlWord) : BitVec 4 := w.extractLsb' 12 4

/-- Field rd, bits 11:10 (R91). -/
def fieldRd (w : ControlWord) : BitVec 2 := w.extractLsb' 10 2

/-- Field rs, bits 9:8 (R91). -/
def fieldRs (w : ControlWord) : BitVec 2 := w.extractLsb' 8 2

/-- Field imm, bits 7:0 (R91, R95). -/
def fieldImm (w : ControlWord) : BitVec 8 := w.extractLsb' 0 8

/-- imm[5:0]: the rotate amount (R94) or the branch target (R96). -/
def fieldImm6 (w : ControlWord) : BitVec 6 := w.extractLsb' 0 6

/-- The state word a two-bit field selects (R97). -/
def vregOfBits (b : BitVec 2) : VReg :=
  if b = 0 then .v0 else if b = 1 then .v1 else if b = 2 then .v2 else .v3

/-- The two-bit number of a state word (R91, R97). -/
def bitsOfVReg : VReg → BitVec 2
  | .v0 => 0
  | .v1 => 1
  | .v2 => 2
  | .v3 => 3

/-- Decode (R102): test the fifteen pairs; if none matches the word is reserved. -/
def decode (w : ControlWord) : Decoded :=
  if rowHit rowWait w then .instr .wait
  else if rowHit rowInit w then .instr .init
  else if rowHit rowLdw w then .instr .ldw
  else if rowHit rowLdp w then .instr .ldp
  else if rowHit rowXorm w then .instr (.xorm (vregOfBits (fieldRd w)))
  else if rowHit rowXori w then .instr (.xori (vregOfBits (fieldRd w)) (fieldImm w))
  else if rowHit rowAdd w then .instr (.add (vregOfBits (fieldRd w)) (vregOfBits (fieldRs w)))
  else if rowHit rowRotl w then .instr (.rotl (vregOfBits (fieldRd w)) (fieldImm6 w))
  else if rowHit rowXor w then .instr (.xor (vregOfBits (fieldRd w)) (vregOfBits (fieldRs w)))
  else if rowHit rowRed w then .instr .red
  else if rowHit rowHalt w then .instr .halt
  else if rowHit rowBfw w then .instr (.bfw (fieldImm6 w))
  else if rowHit rowJmp w then .instr (.jmp (fieldImm6 w))
  else if rowHit rowCall w then .instr (.call (fieldImm6 w))
  else if rowHit rowRet w then .instr .ret
  else if fieldOp w = 0 then .reserved .opcodeZero
  else .reserved .mustBeZero

/-- `op<<12 | rd<<10 | rs<<8 | imm` (R91, R102). -/
def packWord (op : BitVec 4) (rd rs : BitVec 2) (imm : BitVec 8) : ControlWord :=
  (op.setWidth 16 <<< 12) ||| (rd.setWidth 16 <<< 10) ||| (rs.setWidth 16 <<< 8) ||| imm.setWidth 16

/-- Encode, unused fields zero (R102); the operation codes are those of R93. -/
def encode : Instr → ControlWord
  | .wait => packWord 0x1 0 0 0
  | .init => packWord 0x2 0 0 0
  | .ldw => packWord 0x3 0 0 0
  | .ldp => packWord 0x4 0 0 0
  | .xorm rd => packWord 0x5 (bitsOfVReg rd) 0 0
  | .xori rd imm => packWord 0x6 (bitsOfVReg rd) 0 imm
  | .add rd rs => packWord 0x7 (bitsOfVReg rd) (bitsOfVReg rs) 0
  | .rotl rd n => packWord 0x8 (bitsOfVReg rd) 0 (n.setWidth 8)
  | .xor rd rs => packWord 0x9 (bitsOfVReg rd) (bitsOfVReg rs) 0
  | .red => packWord 0xA 0 0 0
  | .halt => packWord 0xB 0 0 0
  | .bfw t => packWord 0xC 0 0 (t.setWidth 8)
  | .jmp t => packWord 0xD 0 0 (t.setWidth 8)
  | .call t => packWord 0xE 0 0 (t.setWidth 8)
  | .ret => packWord 0xF 0 0 0

/-- The control word of a table word: one 16-bit word, bit 0 the least significant; bits above nbits are zero (log 15). -/
def tableControlWord (nbits w : Nat) : ControlWord := BitVec.ofNat 16 (w % 2 ^ nbits)

/-- The instruction of a decoding, if it is one. -/
def instrOf : Decoded → Option Instr
  | .instr i => some i
  | .reserved _ => none

/-- What the decoder reads from a table word (the host's question). -/
def decodeTableWord (nbits w : Nat) : Option Instr := instrOf (decode (tableControlWord nbits w))

end Sys2Proof
end

