-- ==== Sys2Proof/Machine/Rom.lean ====
section
/-! DEFINITION. The micro-ROM's constant table (45_sequencer R207; 30_encoding R105 for the unimplemented addresses). -/

namespace Sys2Proof.Machine

/-- The 36 control words of R207, address 0x00 first. -/
def microWords : Vector ControlWord 36 :=
  #v[0x1000, 0x2000, 0xC00F, 0x4000, 0x5C00, 0xE015, 0xE015, 0x5000, 0x68FF, 0xE015, 0xE015, 0xE015,
    0xE015, 0xA000, 0xB000, 0x3000, 0x5C00, 0xE015, 0xE015, 0x5000, 0xD002, 0x7100, 0x840D, 0x9400,
    0x8020, 0x7B00, 0x8C10, 0x9E00, 0x7300, 0x8C15, 0x9C00, 0x7900, 0x8411, 0x9600, 0x8820, 0xF000]

/-- The whole micro-ROM space: addresses 0x24 to 0x3F read the reserved word 0x0000 (R105). -/
def microRom : Vector ControlWord 64 := microWords ++ Vector.replicate 28 (0x0000 : ControlWord)

/-- The control word at a micro-ROM address (`ROM[a]`, R10). -/
def romAt (rom : Vector ControlWord 64) (a : MicroAddr) : ControlWord := rom[a.toNat]'a.isLt

/-- A micro-ROM that holds `w` at address `a` and is otherwise the same (no rule of the spec writes the ROM: log 6). -/
def romWith (rom : Vector ControlWord 64) (a : MicroAddr) (w : ControlWord) : Vector ControlWord 64 :=
  rom.set a.toNat w a.isLt

end Sys2Proof.Machine
end

