-- ==== Sys2Proof/Machine/State.lean ====
section
/-! DEFINITION. The state of one engine instance with the parameters of its step, the reasons a step stops, and the
state after reset (10_state R20, R30, R44). -/

namespace Sys2Proof.Machine

/-- Message memory: (offset, byte) cells, offsets strictly rising, none equal to what an unlisted offset reads as. -/
abbrev Memory := List Host.Cell

/-- One access on the message port: the offset and how many bytes (20_memory R62, R71). -/
structure MsgRead where
  off : Nat
  count : Nat
deriving DecidableEq, Repr

/-- The steps of HOST, or of the platform for it (00_scope R7): a register read or write at a byte offset from the
block's base with a size in bytes (10_state R39, R40), placing a message of these bytes at offset 0 (70_reset R273
step 2), the reset input (R270). -/
inductive HostStep where
  | read (off size : Nat)
  | write (off size : Nat) (val : Word)
  | place (bytes : List Byte)
  | reset
deriving DecidableEq, Repr

/-- Whose step comes next (00_scope R7). -/
inductive Turn where
  | engine
  | host (h : HostStep)
deriving DecidableEq, Repr

/-- The fourteen registers of R20, the parameters of R30, and the model's own fields. -/
structure State where
  /-- State word 0 (R21). -/
  v0 : Word
  /-- State word 1 (R21). -/
  v1 : Word
  /-- State word 2 (R21). -/
  v2 : Word
  /-- State word 3 (R21). -/
  v3 : Word
  /-- The message or padding word being absorbed (R20). -/
  m : Word
  /-- Key word 0 (R23). -/
  k0 : Word
  /-- Key word 1 (R23). -/
  k1 : Word
  /-- Message length in bytes (R24). -/
  inlen : Word
  /-- Offset of the next unabsorbed message byte (R25). -/
  ptr : Word
  /-- Micro-program counter (R26). -/
  upc : MicroAddr
  /-- Return address of CALL (R27). -/
  lr : MicroAddr
  /-- The result (R28). -/
  digest : Word
  /-- BUSY (R29). -/
  busy : Bool
  /-- DONE (R29). -/
  done : Bool
  /-- UROM (R60, R105): read only; no step writes it (R83; log 6). -/
  rom : Vector ControlWord 64
  /-- MSG (R61; log 4). -/
  msg : Memory
  /-- BUFLEN (R61; log 4). -/
  buflen : Nat
  /-- The model's own: the steps still to come, then ENGINE steps for ever (R30, U8; log 7). -/
  schedule : List Turn
  /-- The model's own: the values HostRead has returned, oldest first (R15; log 9). -/
  hostSeen : List Word
  /-- The model's own: the accesses made on the message port, oldest first (R15, R71; log 9). -/
  msgReads : List MsgRead
  /-- The model's own: how many free values have been drawn (log 3). -/
  draws : Nat
deriving DecidableEq, Repr

/-- Why the machine stops. -/
inductive Fault where
  /-- Raised by the engine's step when the fetched control word is reserved (R100, U1, U7). Safe: the model stops
  where the spec gives the hardware no meaning; never reached from reset. -/
  | reservedWord (why : Reserved)
  /-- Raised by LDW and LDP when the read set is not inside offsets 0 .. BUFLEN-1: the engine is stuck (R76, U2).
  Safe: the hardware has no step either. -/
  | messageReadStuck
deriving DecidableEq, Repr

/-- Why the model gives a step no meaning. -/
inductive Refusal where
  /-- An instruction with no meaning yet; no arm of exec uses it. Safe. -/
  | notModelled (mnemonic : String)
  /-- A host access that is not 64 bits wide at one of the six offsets (R38, U6), by hostStep. Safe. -/
  | hostAccess
  /-- Placing a message while BUSY = 1 (R80, U3), by hostStep. Safe: the spec gives the host no such step. -/
  | messageChange
  /-- Placing more bytes than 64-bit offsets can name (R60), by hostStep. Safe. -/
  | messageTooLong
deriving DecidableEq, Repr

/-- The machine right after reset. upc, BUSY, DONE, digest, k0, k1, inlen are the spec's (R44); v0..v3, m, ptr, lr
have no value in the spec and are 0 here (DESIGN CHOICE, log 1); MSG and BUFLEN are parameters of the spec, here every
64-bit offset with nothing listed (DESIGN CHOICE, log 4). -/
def State.reset : State where
  v0 := 0
  v1 := 0
  v2 := 0
  v3 := 0
  m := 0
  k0 := 0
  k1 := 0
  inlen := 0
  ptr := 0
  upc := 0
  lr := 0
  digest := 0
  busy := false
  done := false
  rom := microRom
  msg := []
  buflen := Config.offsetSpace
  schedule := []
  hostSeen := []
  msgReads := []
  draws := 0

end Sys2Proof.Machine
end

