-- ==== Sys2Proof/Machine/Ops.lean ====
section
/-! DEFINITION. The named operations over message memory, the micro-ROM and upc. The spec has no exception, so there
is no exception entry and no return from one here (60_exceptions R240, R245, R246). -/

namespace Sys2Proof.Machine

/-- What an offset that is not listed reads as (log 4). DESIGN CHOICE. -/
def Memory.unlisted : Byte := 0

/-- MSG(a) (R61). -/
def Memory.read : Memory → Nat → Byte
  | [], _ => Memory.unlisted
  | (b, x) :: rest, a => if a = b then x else Memory.read rest a

/-- The cell of a byte, or none when it is what an unlisted offset reads as. -/
def Memory.cell (a : Nat) (x : Byte) : Memory := if x = Memory.unlisted then [] else [(a, x)]

/-- One byte placed in message memory by the platform, the canonical form kept; the block never calls it (R63). -/
def Memory.write : Memory → Nat → Byte → Memory
  | [], a, x => Memory.cell a x
  | (b, y) :: rest, a, x =>
    if a < b then Memory.cell a x ++ (b, y) :: rest
    else if a = b then Memory.cell a x ++ rest
    else (b, y) :: Memory.write rest a x

/-- Bytes placed from offset a upward. -/
def Memory.writeAll : Memory → Nat → List Byte → Memory
  | mem, _, [] => mem
  | mem, a, x :: xs => Memory.writeAll (Memory.write mem a x) (a + 1) xs

/-- Offsets from `lo` up strictly rising, and no cell equal to the unlisted byte. -/
def Memory.wfFrom : Nat → Memory → Bool
  | _, [] => true
  | lo, (a, x) :: rest => decide (lo ≤ a) && x != Memory.unlisted && Memory.wfFrom (a + 1) rest

/-- The canonical form. -/
def Memory.wf (mem : Memory) : Bool := Memory.wfFrom 0 mem

/-- Every listed offset is below n: MSG is defined for offsets 0 .. BUFLEN-1 only (R61). -/
def Memory.below (n : Nat) (mem : Memory) : Bool := mem.all fun c => decide (c.1 < n)

/-- The n bytes at offsets off .. off+n-1, lowest offset first (R62). -/
def Memory.bytes (mem : Memory) (off n : Nat) : List Byte := (List.range n).map fun i => Memory.read mem (off + i)

/-- `MemRead(off, n)` (R62): enabled only when off + n ≤ BUFLEN; none is "no step" (R76). -/
def memRead (s : State) (off n : Nat) : Option (List Byte) :=
  if off + n ≤ s.buflen then some (Memory.bytes s.msg off n) else none

/-- The access as the port shows it: reading 0 bytes makes none (R62, R71). -/
def accessOf (off n : Nat) : List MsgRead := if n = 0 then [] else [{ off := off, count := n }]

/-- The state with an access noted on the message port (log 9). -/
def State.noteRead (s : State) (off n : Nat) : State := { s with msgReads := s.msgReads ++ accessOf off n }

/-- `upc <- upc + 1` modulo 64 (R10, R26). -/
def State.advance (s : State) : State := { s with upc := s.upc + 1 }

/-- `upc <- t` (R10). -/
def State.jump (s : State) (t : MicroAddr) : State := { s with upc := t }

/-- `ROM[upc]`: the control word the engine performs next (R200). -/
def fetch (s : State) : ControlWord := romAt s.rom s.upc

/-- Whose turn it is, and the state with that turn taken off the schedule; an empty schedule gives the turn to the
ENGINE (log 7). -/
def nextTurn (s : State) : Turn × State :=
  match s.schedule with
  | [] => (.engine, s)
  | t :: rest => (t, { s with schedule := rest })

/-- The schedule with the ENGINE due. -/
def engineDue : List Turn → List Turn
  | [] => []
  | .engine :: rest => .engine :: rest
  | .host h :: rest => .engine :: .host h :: rest

/-- The state whose next engine step fetches `w`, the ENGINE being due. -/
def State.withControlWord (s : State) (w : ControlWord) : State :=
  { s with rom := romWith s.rom s.upc w, schedule := engineDue s.schedule }

end Sys2Proof.Machine
end

