-- ==== Sys2Proof/Machine/Operands.lean ====
section
/-! DEFINITION. The operand forms: state words, the rotate amount, the XOR immediate, the branch target
(30_encoding R94 to R97), and the message operands of LDW and LDP (42_absorb R160, 43_padding R181). -/

namespace Sys2Proof.Machine

/-- `v[r]` (R10, R97). -/
def State.readV (s : State) : VReg → Word
  | .v0 => s.v0
  | .v1 => s.v1
  | .v2 => s.v2
  | .v3 => s.v3

/-- `v[r] <- x` (R10). -/
def State.writeV (s : State) : VReg → Word → State
  | .v0, x => { s with v0 := x }
  | .v1, x => { s with v1 := x }
  | .v2, x => { s with v2 := x }
  | .v3, x => { s with v3 := x }

/-- The XOR immediate: `zext_64(imm[7:0])` (R95). -/
def xorImmediate (imm : BitVec 8) : Word := zext64 imm

/-- The bytes LDW reads: eight at ptr (R160). -/
def wordOperand (s : State) : Option (List Byte) := memRead s s.ptr.toNat 8

/-- The bytes LDP reads: inlen mod 8 at ptr (R181). -/
def tailOperand (s : State) : Option (List Byte) := memRead s s.ptr.toNat (leftOf s.inlen)

/-- The padding word of a length and its leftover bytes (R181). -/
def paddingWord (inlen : Word) (bytes : List Byte) : Word := lengthByte inlen ||| packLE 0 bytes

end Sys2Proof.Machine
end

