-- ==== Sys2Proof/Machine/Absorb.lean ====
section
/-! DEFINITION. Message absorption: LDW, XORM (42_absorb R160, R161). -/

namespace Sys2Proof.Machine

/-- LDW (R160); stuck when ptr + 8 > BUFLEN (R76). -/
def execLdw (s : State) : Host.Outcome State Fault Refusal :=
  match wordOperand s with
  | none => .fault .messageReadStuck
  | some bytes => .next ({ s with m := le64 bytes, ptr := s.ptr + 8 }.noteRead s.ptr.toNat 8).advance

/-- XORM vD (R161). -/
def execXorm (rd : VReg) (s : State) : Host.Outcome State Fault Refusal :=
  .next (s.writeV rd (s.readV rd ^^^ s.m)).advance

end Sys2Proof.Machine
end

