-- ==== Sys2Proof/Machine/Finalize.lean ====
section
/-! DEFINITION. Finalization: XORI, RED (44_finalize R190, R191). -/

namespace Sys2Proof.Machine

/-- XORI vD, imm (R190). -/
def execXori (rd : VReg) (imm : BitVec 8) (s : State) : Host.Outcome State Fault Refusal :=
  .next (s.writeV rd (s.readV rd ^^^ xorImmediate imm)).advance

/-- RED (R191). -/
def execRed (s : State) : Host.Outcome State Fault Refusal :=
  .next { s with digest := s.v0 ^^^ s.v1 ^^^ s.v2 ^^^ s.v3 }.advance

end Sys2Proof.Machine
end

