-- ==== Sys2Proof/Machine/Init.lean ====
section
/-! DEFINITION. State initialization: INIT (40_init R120, R121). -/

namespace Sys2Proof.Machine

/-- C0 (R121; the literal, 90_conflicts C1). -/
def const0 : Word := 0x736f6d6570736575

/-- C1 (R121). -/
def const1 : Word := 0x646f72616e646f6d

/-- C2 (R121). -/
def const2 : Word := 0x6c7967656e657261

/-- C3 (R121). -/
def const3 : Word := 0x7465646279746573

/-- INIT (R120). -/
def execInit (s : State) : Host.Outcome State Fault Refusal :=
  .next ({ s with v0 := const0 ^^^ s.k0, v1 := const1 ^^^ s.k1, v2 := const2 ^^^ s.k0, v3 := const3 ^^^ s.k1,
                  ptr := 0 }.advance)

end Sys2Proof.Machine
end

