-- ==== Sys2Proof/Machine/Padding.lean ====
section
/-! DEFINITION. The padding word: LDP (43_padding R181). -/

namespace Sys2Proof.Machine

/-- LDP (R181); ptr is not changed (D29); stuck when ptr + left > BUFLEN (R76). -/
def execLdp (s : State) : Host.Outcome State Fault Refusal :=
  match tailOperand s with
  | none => .fault .messageReadStuck
  | some bytes =>
    .next ({ s with m := paddingWord s.inlen bytes }.noteRead s.ptr.toNat (leftOf s.inlen)).advance

end Sys2Proof.Machine
end

