-- ==== Sys2Proof/Machine/Flags.lean ====
section
/-! DEFINITION. The two status flags BUSY and DONE and what reads and writes them (10_state R29, R34; 45_sequencer R202,
R203, R209; 60_exceptions R243). There are no condition codes (R29). -/

namespace Sys2Proof.Machine

/-- START (R209): accepted only when BUSY = 0; sets BUSY and clears DONE. -/
def State.start (s : State) : State := if s.busy then s else { s with busy := true, done := false }

/-- The flag writes of HALT (R202). -/
def State.finish (s : State) : State := { s with busy := false, done := true }

/-- The output `done_o` (R243). -/
def doneOut (s : State) : Bool := s.done

/-- `zext_64({DONE, BUSY})` (R34). -/
def statusWord (s : State) : Word := (BitVec.ofBool s.done ++ BitVec.ofBool s.busy).setWidth 64

/-- The condition of BFW: (inlen - ptr) mod 2^64 ≥ 8, unsigned (R203). -/
def fullWordRemains (s : State) : Bool := decide (8 ≤ (s.inlen - s.ptr).toNat)

end Sys2Proof.Machine
end

