-- ==== Sys2Proof/Machine/Sequencer.lean ====
section
/-! DEFINITION. The sequencer's micro-operations: WAIT, HALT, BFW, JMP, CALL, RET (45_sequencer R201 to R206). -/

namespace Sys2Proof.Machine

/-- WAIT (R201): hold until BUSY = 1. -/
def execWait (s : State) : Host.Outcome State Fault Refusal :=
  .next (if s.busy then s.advance else s)

/-- HALT (R202): three writes, one atomic step. -/
def execHalt (s : State) : Host.Outcome State Fault Refusal :=
  .next (s.finish.jump 0)

/-- BFW t (R203). -/
def execBfw (t : MicroAddr) (s : State) : Host.Outcome State Fault Refusal :=
  .next (if fullWordRemains s then s.jump t else s.advance)

/-- JMP t (R204). -/
def execJmp (t : MicroAddr) (s : State) : Host.Outcome State Fault Refusal :=
  .next (s.jump t)

/-- CALL t (R205). -/
def execCall (t : MicroAddr) (s : State) : Host.Outcome State Fault Refusal :=
  .next ({ s with lr := s.upc + 1 }.jump t)

/-- RET (R206). -/
def execRet (s : State) : Host.Outcome State Fault Refusal :=
  .next (s.jump s.lr)

end Sys2Proof.Machine
end

