-- ==== Sys2Proof/Machine/SipRound.lean ====
section
/-! DEFINITION. The SipRound datapath: ADD, ROTL, XOR (41_sipround R130, R131, R132). -/

namespace Sys2Proof.Machine

/-- ADD vD, vS (R130). -/
def execAdd (rd rs : VReg) (s : State) : Host.Outcome State Fault Refusal :=
  .next (s.writeV rd (add64 (s.readV rd) (s.readV rs))).advance

/-- ROTL vD, n (R131). -/
def execRotl (rd : VReg) (n : BitVec 6) (s : State) : Host.Outcome State Fault Refusal :=
  .next (s.writeV rd (rotl64 (s.readV rd) n)).advance

/-- XOR vD, vS (R132). -/
def execXor (rd rs : VReg) (s : State) : Host.Outcome State Fault Refusal :=
  .next (s.writeV rd (s.readV rd ^^^ s.readV rs)).advance

end Sys2Proof.Machine
end

