-- ==== Sys2Proof/Machine/Dispatch.lean ====
section
/-! DEFINITION. One arm per micro-operation (45_sequencer R200, "perform d"). -/

namespace Sys2Proof.Machine

def exec (i : Instr) (s : State) : Host.Outcome State Fault Refusal :=
  match i with
  | .wait => Sys2Proof.Machine.execWait s
  | .init => Sys2Proof.Machine.execInit s
  | .ldw => Sys2Proof.Machine.execLdw s
  | .ldp => Sys2Proof.Machine.execLdp s
  | .xorm rd => Sys2Proof.Machine.execXorm rd s
  | .xori rd imm => Sys2Proof.Machine.execXori rd imm s
  | .add rd rs => Sys2Proof.Machine.execAdd rd rs s
  | .rotl rd n => Sys2Proof.Machine.execRotl rd n s
  | .xor rd rs => Sys2Proof.Machine.execXor rd rs s
  | .red => Sys2Proof.Machine.execRed s
  | .halt => Sys2Proof.Machine.execHalt s
  | .bfw t => Sys2Proof.Machine.execBfw t s
  | .jmp t => Sys2Proof.Machine.execJmp t s
  | .call t => Sys2Proof.Machine.execCall t s
  | .ret => Sys2Proof.Machine.execRet s

end Sys2Proof.Machine
end

