-- ==== Sys2Proof/Machine/Engine.lean ====
section
/-! DEFINITION. One step of ENGINE: fetch, decode, perform (45_sequencer R200). -/

namespace Sys2Proof.Machine

/-- Perform a decoded control word; a reserved one is a fault of the model (R100, R200). -/
def perform (d : Decoded) (s : State) : Host.Outcome State Fault Refusal :=
  match d with
  | .instr i => exec i s
  | .reserved why => .fault (.reservedWord why)

/-- One step of ENGINE (R200). -/
def engineStep (s : State) : Host.Outcome State Fault Refusal := perform (decode (fetch s)) s

end Sys2Proof.Machine
end

