-- ==== Sys2Proof/Machine/Interface.lean ====
section
/-! DEFINITION. The host's steps: register reads and writes, placing the message, the reset input
(10_state R32 to R41, R44; 20_memory R80; 70_reset R270, R271, R273). -/

namespace Sys2Proof.Machine

/-- The six host registers (R32). -/
inductive HostReg where
  | ctrl
  | status
  | k0
  | k1
  | inlen
  | digest
deriving DecidableEq, Repr

/-- The register a byte offset names (R32). -/
def hostRegAt (off : Nat) : Option HostReg :=
  match off with
  | 0x00 => some .ctrl
  | 0x08 => some .status
  | 0x10 => some .k0
  | 0x18 => some .k1
  | 0x20 => some .inlen
  | 0x28 => some .digest
  | _ => none

/-- The register a legal access reaches; none for another width, a misaligned access or another offset (R38). -/
def hostTarget (off size : Nat) : Option HostReg :=
  if size = Config.hostAccessBytes then hostRegAt off else none

/-- The value `HostRead` returns (R40). -/
def hostReadValue (s : State) : HostReg → Word
  | .ctrl => 0
  | .status => statusWord s
  | .k0 => 0
  | .k1 => 0
  | .inlen => s.inlen
  | .digest => if s.done then s.digest else 0

/-- The effect of `HostWrite` (R39); K0, K1 and INLEN are locked while BUSY = 1 (R41). -/
def hostWriteReg (s : State) : HostReg → Word → State
  | .ctrl, val => if val.getLsbD 0 then s.start else s
  | .k0, val => if s.busy then s else { s with k0 := val }
  | .k1, val => if s.busy then s else { s with k1 := val }
  | .inlen, val => if s.busy then s else { s with inlen := val }
  | .status, _ => s
  | .digest, _ => s

/-- One `HostRead` step: no register changes; the value returned is noted (R40; log 9). -/
def hostRead (off size : Nat) (s : State) : Host.Outcome State Fault Refusal :=
  match hostTarget off size with
  | none => .refused .hostAccess
  | some r => .next { s with hostSeen := s.hostSeen ++ [hostReadValue s r] }

/-- One `HostWrite` step (R39). -/
def hostWrite (off size : Nat) (val : Word) (s : State) : Host.Outcome State Fault Refusal :=
  match hostTarget off size with
  | none => .refused .hostAccess
  | some r => .next (hostWriteReg s r val)

/-- Placing a message: MSG is these bytes at offsets 0 up and BUFLEN their number (R61, R273); not while BUSY (R80). -/
def hostPlace (bytes : List Byte) (s : State) : Host.Outcome State Fault Refusal :=
  if s.busy then .refused .messageChange
  else if Config.offsetSpace < bytes.length then .refused .messageTooLong
  else .next { s with msg := Memory.writeAll [] 0 bytes, buflen := bytes.length }

/-- The reset input (R44, R270): v0..v3, m, ptr, lr are left with free values (log 3). -/
def State.resetInput (s : State) : State :=
  { s with
    v0 := Config.unspecified s.draws
    v1 := Config.unspecified (s.draws + 1)
    v2 := Config.unspecified (s.draws + 2)
    v3 := Config.unspecified (s.draws + 3)
    m := Config.unspecified (s.draws + 4)
    ptr := Config.unspecified (s.draws + 5)
    lr := (Config.unspecified (s.draws + 6)).setWidth 6
    draws := s.draws + 7
    upc := 0
    busy := false
    done := false
    digest := 0
    k0 := 0
    k1 := 0
    inlen := 0 }

/-- One step of HOST (00_scope R7). -/
def hostStep (h : HostStep) (s : State) : Host.Outcome State Fault Refusal :=
  match h with
  | .read off size => hostRead off size s
  | .write off size val => hostWrite off size val s
  | .place bytes => hostPlace bytes s
  | .reset => .next s.resetInput

end Sys2Proof.Machine
end

