-- ==== Sys2Proof/Machine/Step.lean ====
section
/-! DEFINITION. One step of the machine: the step of the agent whose turn it is (00_scope R7, 45_sequencer R200). -/

namespace Sys2Proof.Machine

/-- One atomic step: ENGINE's (R200) or HOST's (R39, R40, R270), as the schedule says (R30, U8). -/
def step (s : State) : Host.Outcome State Fault Refusal :=
  match nextTurn s with
  | (.engine, t) => engineStep t
  | (.host h, t) => hostStep h t

/-- The state with the control word of a table word at upc, where the next engine step fetches (log 6). -/
def State.withFetchWord (s : State) (nbits w : Nat) : State := s.withControlWord (tableControlWord nbits w)

end Sys2Proof.Machine
end

