-- ==== Sys2Proof/Machine/Reference.lean ====
section
/-! DEFINITION. The source-level functions of the spec: Init, SipRound, Compress, Absorb, PadWord, Finalize, Hash
(40_init R122, 41_sipround R133, 42_absorb R162, R163, 43_padding R180, 44_finalize R192, 45_sequencer R210). No meaning
of a micro-operation calls them; statements compare the machine with them. -/

namespace Sys2Proof.Machine.Reference

/-- The state (v0, v1, v2, v3) as the source-level functions pass it. -/
structure V where
  v0 : Word
  v1 : Word
  v2 : Word
  v3 : Word
deriving DecidableEq, Repr

/-- `Init(k0, k1)` (R122). -/
def init (k0 k1 : Word) : V where
  v0 := const0 ^^^ k0
  v1 := const1 ^^^ k1
  v2 := const2 ^^^ k0
  v3 := const3 ^^^ k1

/-- `SipRound` (R133): the fourteen assignments in order. -/
def sipRound (v : V) : V :=
  let v := { v with v0 := v.v0 + v.v1 }
  let v := { v with v1 := rotl64 v.v1 13 }
  let v := { v with v1 := v.v1 ^^^ v.v0 }
  let v := { v with v0 := rotl64 v.v0 32 }
  let v := { v with v2 := v.v2 + v.v3 }
  let v := { v with v3 := rotl64 v.v3 16 }
  let v := { v with v3 := v.v3 ^^^ v.v2 }
  let v := { v with v0 := v.v0 + v.v3 }
  let v := { v with v3 := rotl64 v.v3 21 }
  let v := { v with v3 := v.v3 ^^^ v.v0 }
  let v := { v with v2 := v.v2 + v.v1 }
  let v := { v with v1 := rotl64 v.v1 17 }
  let v := { v with v1 := v.v1 ^^^ v.v2 }
  { v with v2 := rotl64 v.v2 32 }

/-- `Compress(v, w)` (R162): c = 2 rounds. -/
def compress (v : V) (w : Word) : V :=
  let v := sipRound (sipRound { v with v3 := v.v3 ^^^ w })
  { v with v0 := v.v0 ^^^ w }

/-- `LE64(input[off .. off+7])` (R13, R163). -/
def wordAt (input : Nat → Byte) (off : Nat) : Word := le64 ((List.range 8).map fun i => input (off + i))

/-- The first n passes of `Absorb` (R163): words j = 0 .. n-1 in increasing order. -/
def absorb (input : Nat → Byte) : Nat → V → V
  | 0, v => v
  | n + 1, v => compress (absorb input n v) (wordAt input (8 * n))

/-- `PadWord(input, inlen)` (R180), as its loop over the leftover bytes. -/
def padWord (input : Nat → Byte) (inlen : Nat) : Word :=
  (List.range (inlen % 8)).foldl (fun b i => b ||| (zext64 (input (inlen - inlen % 8 + i)) <<< (8 * i)))
    (BitVec.ofNat 64 (inlen % 256) <<< 56)

/-- The state after the d = 4 rounds of `Finalize` (R192). -/
def finalRounds (v : V) : V := sipRound (sipRound (sipRound (sipRound { v with v2 := v.v2 ^^^ 0xff })))

/-- `v0 ^ v1 ^ v2 ^ v3` (R192). -/
def reduce (v : V) : Word := v.v0 ^^^ v.v1 ^^^ v.v2 ^^^ v.v3

/-- `Finalize(v)` (R192). -/
def finalize (v : V) : Word := reduce (finalRounds v)

/-- The state `Hash` gives to `Finalize` (R210). -/
def absorbed (input : Nat → Byte) (inlen : Nat) (k0 k1 : Word) : V :=
  compress (absorb input (inlen / 8) (init k0 k1)) (padWord input inlen)

/-- `Hash(input, inlen, k0, k1)` (R210). -/
def hash (input : Nat → Byte) (inlen : Nat) (k0 k1 : Word) : Word := finalize (absorbed input inlen k0 k1)

/-- DOC's `hash(input: byte sequence, k0, k1)` (R2, R210). -/
def hashBytes (input : List Byte) (k0 k1 : Word) : Word := hash (fun i => input.getD i 0) input.length k0 k1

/-- The reads of one hash, in order (R71). -/
def readsOf (inlen : Nat) : List MsgRead :=
  ((List.range (inlen / 8)).map fun j => { off := 8 * j, count := 8 }) ++ accessOf (8 * (inlen / 8)) (inlen % 8)

end Sys2Proof.Machine.Reference
end

