-- ==== Sys2Proof/Safety.lean ====
section
/-! DEFINITION. The terms in which statements speak of runs: the invariants of every reachable state (45_sequencer R212),
the engine steps a hash still needs (R213), runs of the machine. -/

namespace Sys2Proof.Safety

open Sys2Proof.Machine

/-- n steps of the machine, stopping at the first fault or refusal (`Laws/Step.lean`: it is `Host.Core.run`). -/
def run : Nat → State → Host.Outcome State Fault Refusal
  | 0, s => .next s
  | n + 1, s =>
    match step s with
    | .next t => run n t
    | .fault r => .fault r
    | .refused r => .refused r

/-- It is the ENGINE's turn. -/
def engineTurn (s : State) : Bool := (nextTurn s).1 == .engine

/-- The next step is not the reset input. -/
def notReset (s : State) : Bool := (nextTurn s).1 != .host .reset

/-- The number of full words not yet absorbed. -/
def wordsLeft (s : State) : Nat := (s.inlen - s.ptr).toNat / 8

/-- upc is inside the subroutine RND (R135). -/
def inRound (a : MicroAddr) : Bool := decide (0x15 ≤ a.toNat) && decide (a.toNat ≤ 0x23)

/-- The return addresses of the eight CALLs of the micro-ROM (R212 item 5). -/
def returnAddrs : List MicroAddr := [0x06, 0x07, 0x0A, 0x0B, 0x0C, 0x0D, 0x12, 0x13]

/-- R212 items 1, 2, 3 (its first sentence), 4 and 5, and that the word LDW is about to read remains. -/
structure Sequenced (s : State) : Prop where
  implemented : s.upc.toNat ≤ 0x23
  idleAtZero : s.busy = false → s.upc = 0
  notBoth : ¬(s.busy = true ∧ s.done = true)
  ptrAligned : s.busy = true → s.upc ≠ 0 → s.upc ≠ 1 → s.ptr.toNat % 8 = 0
  ptrBounded : s.busy = true → s.upc ≠ 0 → s.upc ≠ 1 → s.ptr.toNat ≤ s.inlen.toNat - s.inlen.toNat % 8
  wordRemains : s.upc = 0x0F → 8 ≤ s.inlen.toNat - s.ptr.toNat
  ptrAtPadding : s.upc = 0x03 → s.ptr.toNat = 8 * (s.inlen.toNat / 8)
  linked : inRound s.upc = true → s.lr ∈ returnAddrs

/-- Message memory is canonical and lies inside the buffer, and the buffer inside the offset space (R60, R61). -/
structure MessageOk (s : State) : Prop where
  canonical : Memory.wf s.msg = true
  inside : Memory.below s.buflen s.msg = true
  addressable : s.buflen ≤ Config.offsetSpace

/-- The invariant of every state reachable from reset (R212) with the micro-ROM of R207. -/
structure Inv (s : State) : Prop where
  rom : s.rom = microRom
  sequenced : Sequenced s
  message : MessageOk s

/-- Engine steps from a micro-ROM address outside RND to HALT, HALT included, with n full words still to be absorbed
(45_sequencer R213: 2, 37 a pass, 1, 35, 66, 1). -/
def stepsFrom (a : MicroAddr) (n : Nat) : Nat :=
  match a.toNat with
  | 0x00 => 105 + 37 * n
  | 0x01 => 104 + 37 * n
  | 0x02 => 103 + 37 * n
  | 0x03 => 102
  | 0x04 => 101
  | 0x05 => 100
  | 0x06 => 84
  | 0x07 => 68
  | 0x08 => 67
  | 0x09 => 66
  | 0x0A => 50
  | 0x0B => 34
  | 0x0C => 18
  | 0x0D => 2
  | 0x0E => 1
  | 0x0F => 102 + 37 * n
  | 0x10 => 138 + 37 * n
  | 0x11 => 137 + 37 * n
  | 0x12 => 121 + 37 * n
  | 0x13 => 105 + 37 * n
  | 0x14 => 104 + 37 * n
  | _ => 0

/-- Full words still to be absorbed, as the address says whether ptr counts yet: before INIT all of the message. -/
def wordsToCome (s : State) : Nat := if s.upc = 0 ∨ s.upc = 1 then s.inlen.toNat / 8 else wordsLeft s

/-- Engine steps until HALT has run; 0 when idle; inside RND the rest of the subroutine, then from lr (R213). -/
def stepsLeft (s : State) : Nat :=
  if s.busy = false then 0
  else if inRound s.upc then (0x24 - s.upc.toNat) + stepsFrom s.lr (wordsToCome s)
  else stepsFrom s.upc (wordsToCome s)

/-- The state words as the source-level functions take them. -/
def words (s : State) : Reference.V := { v0 := s.v0, v1 := s.v1, v2 := s.v2, v3 := s.v3 }

/-- The state with these state words. -/
def withWords (s : State) (v : Reference.V) : State := { s with v0 := v.v0, v1 := v.v1, v2 := v.v2, v3 := v.v3 }

end Sys2Proof.Safety
end

