-- ==== Sys2Proof/Certificates/Slice0/Obligations.lean ====
section
/-! DEFINITION. The statements about ch-siphash CORE, from the spec's numbered rules; each docstring names the rule. -/

open Sys2Proof Sys2Proof.Machine Sys2Proof.Safety

/-! ### Encoding -/

/-- R102, R91: decode is total, and encode is its inverse on the fifteen non-reserved outcomes. -/
def Obligations.DecodeAndEncodeAreInverse : Prop :=
  (∀ i : Instr, decode (encode i) = .instr i) ∧
  (∀ (w : ControlWord) (i : Instr), decode w = .instr i → encode i = w) ∧
  (∀ w : ControlWord, (∃ why, decode w = .reserved why) ↔ ∀ r ∈ opcodeRows, w &&& r.mask ≠ r.pattern)

/-- R93: what each of the fifteen mask and match pairs of the opcode map decodes to, operand fields included (R91, R94
to R97). -/
def Obligations.EachTableRowDecodesToItsOperation : Prop :=
  ∀ w : ControlWord,
    (w &&& 0xFFFF = 0x1000 ↔ decode w = .instr .wait) ∧
    (w &&& 0xFFFF = 0x2000 ↔ decode w = .instr .init) ∧
    (w &&& 0xFFFF = 0x3000 ↔ decode w = .instr .ldw) ∧
    (w &&& 0xFFFF = 0x4000 ↔ decode w = .instr .ldp) ∧
    (∀ rd, w &&& 0xF3FF = 0x5000 ∧ w.extractLsb' 10 2 = bitsOfVReg rd ↔ decode w = .instr (.xorm rd)) ∧
    (∀ rd imm, w &&& 0xF300 = 0x6000 ∧ w.extractLsb' 10 2 = bitsOfVReg rd ∧ w.extractLsb' 0 8 = imm ↔
      decode w = .instr (.xori rd imm)) ∧
    (∀ rd rs, w &&& 0xF0FF = 0x7000 ∧ w.extractLsb' 10 2 = bitsOfVReg rd ∧ w.extractLsb' 8 2 = bitsOfVReg rs ↔
      decode w = .instr (.add rd rs)) ∧
    (∀ rd n, w &&& 0xF3C0 = 0x8000 ∧ w.extractLsb' 10 2 = bitsOfVReg rd ∧ w.extractLsb' 0 6 = n ↔
      decode w = .instr (.rotl rd n)) ∧
    (∀ rd rs, w &&& 0xF0FF = 0x9000 ∧ w.extractLsb' 10 2 = bitsOfVReg rd ∧ w.extractLsb' 8 2 = bitsOfVReg rs ↔
      decode w = .instr (.xor rd rs)) ∧
    (w &&& 0xFFFF = 0xA000 ↔ decode w = .instr .red) ∧
    (w &&& 0xFFFF = 0xB000 ↔ decode w = .instr .halt) ∧
    (∀ t, w &&& 0xFFC0 = 0xC000 ∧ w.extractLsb' 0 6 = t ↔ decode w = .instr (.bfw t)) ∧
    (∀ t, w &&& 0xFFC0 = 0xD000 ∧ w.extractLsb' 0 6 = t ↔ decode w = .instr (.jmp t)) ∧
    (∀ t, w &&& 0xFFC0 = 0xE000 ∧ w.extractLsb' 0 6 = t ↔ decode w = .instr (.call t)) ∧
    (w &&& 0xFFFF = 0xF000 ↔ decode w = .instr .ret)

/-- R93: "The rows are disjoint ..., so at most one row matches." -/
def Obligations.OpcodeRowsAreDisjoint : Prop :=
  ∀ (w : ControlWord) (r r' : OpcodeRow), r ∈ opcodeRows → r' ∈ opcodeRows →
    w &&& r.mask = r.pattern → w &&& r'.mask = r'.pattern → r = r'

/-- R98, R99: which words are reserved, by the must-be-zero column of R92; every other word is an instruction. R102 has
one outcome "reserved"; the two reason names are the model's choice (log 16). -/
def Obligations.ReservedWordsByFormat : Prop :=
  (∀ w : ControlWord, decode w = .reserved .opcodeZero ↔ w.extractLsb' 12 4 = 0) ∧
  (∀ w : ControlWord, decode w = .reserved .mustBeZero ↔
    w.extractLsb' 12 4 ≠ 0 ∧ ∃ f, formatOf (w.extractLsb' 12 4) = some f ∧ w &&& mustBeZero f ≠ 0)

/-- R91, R93, with the words of 95_test_vectors section 2.9: one word of each family, and reserved ones. The two
reason names are log 16. -/
def Obligations.SampleWordsDecode : Prop :=
  decode 0x1000 = .instr .wait ∧ decode 0x2000 = .instr .init ∧ decode 0x3000 = .instr .ldw ∧
  decode 0x4000 = .instr .ldp ∧ decode 0x5C00 = .instr (.xorm .v3) ∧ decode 0x6C01 = .instr (.xori .v3 0x01) ∧
  decode 0x7100 = .instr (.add .v0 .v1) ∧ decode 0x883F = .instr (.rotl .v2 63) ∧
  decode 0x9E00 = .instr (.xor .v3 .v2) ∧ decode 0xA000 = .instr .red ∧ decode 0xB000 = .instr .halt ∧
  decode 0xC03F = .instr (.bfw 0x3F) ∧ decode 0xD002 = .instr (.jmp 0x02) ∧ decode 0xE015 = .instr (.call 0x15) ∧
  decode 0xF000 = .instr .ret ∧ decode 0x0000 = .reserved .opcodeZero ∧ decode 0x8440 = .reserved .mustBeZero

/-! ### The step -/

/-- R200: when the ENGINE is due and the control word at upc decodes to i, a step performs i on the state with the
ENGINE's turn taken off the schedule; a reserved word is a fault; and `withFetchWord` plants the word a step fetches.
The schedule is log 7, the planted word log 6. -/
def Obligations.StepPerformsTheDecodedWord : Prop :=
  (∀ (s : State) (i : Instr), s.schedule = [] → decode (fetch s) = .instr i → step s = exec i s) ∧
  (∀ (s : State) (i : Instr) (rest : List Turn), s.schedule = .engine :: rest → decode (fetch s) = .instr i →
    step s = exec i { s with schedule := rest }) ∧
  (∀ (s : State) (why : Reserved), engineTurn s = true → decode (fetch s) = .reserved why →
    step s = .fault (.reservedWord why)) ∧
  (∀ (s : State) (w : Nat) (i : Instr), decodeTableWord 16 w = some i →
    step (s.withFetchWord 16 w) = exec i (nextTurn (s.withFetchWord 16 w)).2)

/-- R7: when a HOST step is due, a step is that HOST step on the state with the turn taken off the schedule. The
schedule is log 7. -/
def Obligations.StepTakesTheScheduledHostTurn : Prop :=
  ∀ (s : State) (h : HostStep) (rest : List Turn), s.schedule = .host h :: rest →
    step s = hostStep h { s with schedule := rest }

/-- R200, R62, R76, R181: the engine's step on an instruction is enabled in every state except the two stuck cases, LDW
with ptr + 8 > BUFLEN and LDP with ptr + inlen mod 8 > BUFLEN. The fault's name is the model's (log 10); LDP with no
leftover byte and ptr > BUFLEN is stuck by the letter of R62 and R181 (log 12). -/
def Obligations.EngineStopsOnlyWhenAReadIsOutside : Prop :=
  ∀ (s : State) (i : Instr), decode (fetch s) = .instr i →
    (if (i = .ldw ∧ s.buflen < s.ptr.toNat + 8) ∨ (i = .ldp ∧ s.buflen < s.ptr.toNat + s.inlen.toNat % 8)
     then engineStep s = .fault .messageReadStuck
     else ∃ t, engineStep s = .next t)

/-- R207: the micro-ROM is the listed constant; each implemented address holds the listed micro-operation, and no step
of any agent changes it. -/
def Obligations.MicroRomIsTheListing : Prop :=
  State.reset.rom = microRom ∧
  (List.range 36).map (fun a => romAt microRom (BitVec.ofNat 6 a)) =
    [0x1000, 0x2000, 0xC00F, 0x4000, 0x5C00, 0xE015, 0xE015, 0x5000, 0x68FF, 0xE015, 0xE015, 0xE015, 0xE015, 0xA000,
      0xB000, 0x3000, 0x5C00, 0xE015, 0xE015, 0x5000, 0xD002, 0x7100, 0x840D, 0x9400, 0x8020, 0x7B00, 0x8C10, 0x9E00,
      0x7300, 0x8C15, 0x9C00, 0x7900, 0x8411, 0x9600, 0x8820, 0xF000] ∧
  ((List.range 28).map fun a => romAt microRom (BitVec.ofNat 6 (36 + a))) = List.replicate 28 0x0000 ∧
  (List.range 36).map (fun a => instrOf (decode (romAt microRom (BitVec.ofNat 6 a)))) =
    [some .wait, some .init, some (.bfw 0x0F), some .ldp, some (.xorm .v3), some (.call 0x15), some (.call 0x15),
      some (.xorm .v0), some (.xori .v2 0xFF), some (.call 0x15), some (.call 0x15), some (.call 0x15),
      some (.call 0x15), some .red, some .halt, some .ldw, some (.xorm .v3), some (.call 0x15), some (.call 0x15),
      some (.xorm .v0), some (.jmp 0x02), some (.add .v0 .v1), some (.rotl .v1 13), some (.xor .v1 .v0),
      some (.rotl .v0 32), some (.add .v2 .v3), some (.rotl .v3 16), some (.xor .v3 .v2), some (.add .v0 .v3),
      some (.rotl .v3 21), some (.xor .v3 .v0), some (.add .v2 .v1), some (.rotl .v1 17), some (.xor .v1 .v2),
      some (.rotl .v2 32), some .ret] ∧
  (∀ s t : State, step s = .next t → t.rom = s.rom)

/-- R105, R100: a fetch from an unimplemented address gives the reserved word 0x0000, and the step faults. The reason
name is log 16. -/
def Obligations.UnimplementedAddressFaults : Prop :=
  ∀ s : State, s.rom = microRom → 0x24 ≤ s.upc.toNat → engineTurn s = true →
    fetch s = 0x0000 ∧ step s = .fault (.reservedWord .opcodeZero)

/-! ### Initialization -/

/-- R120 INIT. -/
def Obligations.InitXorsConstantsWithKey : Prop :=
  encode .init = 0x2000 ∧ (∀ a : MicroAddr, romAt microRom a = 0x2000 ↔ a = 0x01) ∧
  ∀ s : State, exec .init s = .next { s with
    v0 := 0x736f6d6570736575 ^^^ s.k0, v1 := 0x646f72616e646f6d ^^^ s.k1,
    v2 := 0x6c7967656e657261 ^^^ s.k0, v3 := 0x7465646279746573 ^^^ s.k1, ptr := 0, upc := s.upc + 1 }

/-- R123: after INIT the state words are Init(k0, k1). -/
def Obligations.InitRealisesTheSourceFunction : Prop :=
  ∀ s : State, ∃ t, exec .init s = .next t ∧ words t = Reference.init s.k0 s.k1

/-! ### The SipRound datapath -/

/-- R130 ADD: the sum modulo 2^64 as integers, for all sixteen register pairs, and nothing else but upc. -/
def Obligations.AddIsModularAddition : Prop :=
  ∀ (rd rs : VReg) (s : State),
    encode (.add rd rs) = 0x7000 ||| ((bitsOfVReg rd).setWidth 16 <<< 10) ||| ((bitsOfVReg rs).setWidth 16 <<< 8) ∧
    ∃ t, exec (.add rd rs) s = .next t ∧
      (t.readV rd).toNat = ((s.readV rd).toNat + (s.readV rs).toNat) % 2 ^ 64 ∧
      (∀ r, r ≠ rd → t.readV r = s.readV r) ∧ t.upc.toNat = (s.upc.toNat + 1) % 64 ∧
      t = { s with v0 := t.v0, v1 := t.v1, v2 := t.v2, v3 := t.v3, upc := t.upc }

/-- R131 ROTL (with R12): bit j of v[D] becomes bit (j + n) mod 64, for every register and all 64 amounts. -/
def Obligations.RotlMovesEveryBit : Prop :=
  ∀ (rd : VReg) (n : BitVec 6) (s : State),
    encode (.rotl rd n) = 0x8000 ||| ((bitsOfVReg rd).setWidth 16 <<< 10) ||| n.setWidth 16 ∧
    (∀ a r k, decode (romAt microRom a) = .instr (.rotl r k) → k ∈ [13, 16, 17, 21, 32]) ∧
    ∃ t, exec (.rotl rd n) s = .next t ∧
      (∀ j, j < 64 → (t.readV rd).getLsbD ((j + n.toNat) % 64) = (s.readV rd).getLsbD j) ∧
      (∀ r, r ≠ rd → t.readV r = s.readV r) ∧ t.upc.toNat = (s.upc.toNat + 1) % 64 ∧
      t = { s with v0 := t.v0, v1 := t.v1, v2 := t.v2, v3 := t.v3, upc := t.upc }

/-- R132 XOR: bit by bit, for all sixteen register pairs (rd = rs gives 0). -/
def Obligations.XorIsBitwise : Prop :=
  ∀ (rd rs : VReg) (s : State),
    encode (.xor rd rs) = 0x9000 ||| ((bitsOfVReg rd).setWidth 16 <<< 10) ||| ((bitsOfVReg rs).setWidth 16 <<< 8) ∧
    ∃ t, exec (.xor rd rs) s = .next t ∧
      (∀ j, (t.readV rd).getLsbD j = ((s.readV rd).getLsbD j != (s.readV rs).getLsbD j)) ∧
      (∀ r, r ≠ rd → t.readV r = s.readV r) ∧ t.upc.toNat = (s.upc.toNat + 1) % 64 ∧
      t = { s with v0 := t.v0, v1 := t.v1, v2 := t.v2, v3 := t.v3, upc := t.upc }

/-- R12: rotl64 by its formula and bit by bit. -/
def Obligations.RotationIsCircular : Prop :=
  ∀ x : Word, rotl64 x 0 = x ∧
    ∀ n : BitVec 6, (n ≠ 0 → (rotl64 x n).toNat = (x.toNat * 2 ^ n.toNat % 2 ^ 64 ||| x.toNat / 2 ^ (64 - n.toNat))) ∧
      ∀ i, i < 64 → (rotl64 x n).getLsbD ((i + n.toNat) % 64) = x.getLsbD i

/-! ### Absorption and padding -/

/-- R13: LE64 of eight bytes. -/
def Obligations.LittleEndianDecodeOfEightBytes : Prop :=
  ∀ b0 b1 b2 b3 b4 b5 b6 b7 : Byte,
    le64 [b0, b1, b2, b3, b4, b5, b6, b7] =
      b0.setWidth 64 ||| b1.setWidth 64 <<< 8 ||| b2.setWidth 64 <<< 16 ||| b3.setWidth 64 <<< 24 |||
        b4.setWidth 64 <<< 32 ||| b5.setWidth 64 <<< 40 ||| b6.setWidth 64 <<< 48 ||| b7.setWidth 64 <<< 56

/-- R62: MemRead gives the n bytes from off up, lowest first, exactly when they lie inside the buffer; reading no byte
makes no access. That n = 0 with off > BUFLEN answers none too is log 12; the note of the access is log 9. -/
def Obligations.MemReadGivesTheBytesOrNoStep : Prop :=
  (∀ (s : State) (off n : Nat), off + n ≤ s.buflen →
    ∃ bytes, memRead s off n = some bytes ∧ bytes.length = n ∧
      ∀ i, i < n → bytes[i]? = some (Memory.read s.msg (off + i))) ∧
  (∀ (s : State) (off n : Nat), s.buflen < off + n → memRead s off n = none) ∧
  (∀ off n : Nat, accessOf off n = if n = 0 then [] else [{ off := off, count := n }])

/-- R160 LDW: eight bytes at ptr, byte i of the message to byte i of m; ptr + 8; stuck outside the buffer; where the
micro-ROM reaches it, eight bytes remain. That stuck is a fault is log 10; the note of the access is log 9. -/
def Obligations.LdwLoadsALittleEndianWord : Prop :=
  encode .ldw = 0x3000 ∧ (∀ a : MicroAddr, romAt microRom a = 0x3000 ↔ a = 0x0F) ∧
  (∀ s : State, s.ptr.toNat + 8 ≤ s.buflen → ∃ t, exec .ldw s = .next t ∧
    (∀ i j, i < 8 → j < 8 → t.m.getLsbD (8 * i + j) = (Memory.read s.msg (s.ptr.toNat + i)).getLsbD j) ∧
    t.ptr = s.ptr + 8 ∧ t.upc = s.upc + 1 ∧ t.msgReads = s.msgReads ++ [{ off := s.ptr.toNat, count := 8 }] ∧
    t = { s with m := t.m, ptr := t.ptr, upc := t.upc, msgReads := t.msgReads }) ∧
  (∀ s : State, s.buflen < s.ptr.toNat + 8 → exec .ldw s = .fault .messageReadStuck) ∧
  (∀ s : State, Inv s → s.upc = 0x0F → s.ptr.toNat + 8 ≤ s.inlen.toNat ∧ s.ptr.toNat % 8 = 0)

/-- R161 XORM: v[D] XOR m bit by bit, m kept; the micro-ROM uses v3 and v0 only. -/
def Obligations.XormFoldsTheMessageWord : Prop :=
  ∀ (rd : VReg) (s : State),
    encode (.xorm rd) = 0x5000 ||| ((bitsOfVReg rd).setWidth 16 <<< 10) ∧
    (∀ a r, decode (romAt microRom a) = .instr (.xorm r) → r = .v3 ∨ r = .v0) ∧
    ∃ t, exec (.xorm rd) s = .next t ∧
      (∀ j, (t.readV rd).getLsbD j = ((s.readV rd).getLsbD j != s.m.getLsbD j)) ∧
      (∀ r, r ≠ rd → t.readV r = s.readV r) ∧ t.upc.toNat = (s.upc.toNat + 1) % 64 ∧
      t = { s with v0 := t.v0, v1 := t.v1, v2 := t.v2, v3 := t.v3, upc := t.upc }

/-- R181 LDP: the length byte on top, the inlen mod 8 bytes at ptr below it, every other bit 0; ptr unchanged; the one
access only if there are leftover bytes; stuck outside the buffer; where the micro-ROM reaches it, m is PadWord. That
stuck is a fault is log 10, that it takes in no leftover byte with ptr > BUFLEN log 12; the note of the access is log 9. -/
def Obligations.LdpBuildsThePaddingWord : Prop :=
  encode .ldp = 0x4000 ∧ (∀ a : MicroAddr, romAt microRom a = 0x4000 ↔ a = 0x03) ∧
  (∀ s : State, s.ptr.toNat + s.inlen.toNat % 8 ≤ s.buflen → ∃ t, exec .ldp s = .next t ∧
    (∀ j, j < 8 → t.m.getLsbD (56 + j) = s.inlen.getLsbD j) ∧
    (∀ i j, i < s.inlen.toNat % 8 → j < 8 →
      t.m.getLsbD (8 * i + j) = (Memory.read s.msg (s.ptr.toNat + i)).getLsbD j) ∧
    (∀ b, 8 * (s.inlen.toNat % 8) ≤ b → b < 56 → t.m.getLsbD b = false) ∧
    t.upc = s.upc + 1 ∧
    t.msgReads = (if s.inlen.toNat % 8 = 0 then s.msgReads
      else s.msgReads ++ [{ off := s.ptr.toNat, count := s.inlen.toNat % 8 }]) ∧
    t = { s with m := t.m, upc := t.upc, msgReads := t.msgReads }) ∧
  (∀ s : State, s.buflen < s.ptr.toNat + s.inlen.toNat % 8 → exec .ldp s = .fault .messageReadStuck) ∧
  (∀ s : State, Inv s → s.upc = 0x03 → s.ptr.toNat = s.inlen.toNat - s.inlen.toNat % 8 ∧
    (s.inlen.toNat ≤ s.buflen → ∃ t, exec .ldp s = .next t ∧
      t.m = Reference.padWord (Memory.read s.msg) s.inlen.toNat))

/-- R180, bit by bit: the padding word of the source-level function, for every length that inlen can hold. -/
def Obligations.PadWordBitByBit : Prop :=
  ∀ (input : Nat → Byte) (inlen : Nat), inlen < 2 ^ 64 →
    (∀ j, j < 8 → (Reference.padWord input inlen).getLsbD (56 + j) = inlen.testBit j) ∧
    (∀ i j, i < inlen % 8 → j < 8 →
      (Reference.padWord input inlen).getLsbD (8 * i + j) = (input (inlen - inlen % 8 + i)).getLsbD j) ∧
    (∀ b, 8 * (inlen % 8) ≤ b → b < 56 → (Reference.padWord input inlen).getLsbD b = false)

/-- R183: only the low 8 bits of the length enter the padding word. -/
def Obligations.PadWordEncodesTheLengthModulo256 : Prop :=
  ∀ (input input' : Nat → Byte) (n n' : Nat), n % 256 = n' % 256 →
    (∀ i, i < n % 8 → input (n - n % 8 + i) = input' (n' - n' % 8 + i)) →
    Reference.padWord input n = Reference.padWord input' n'

/-! ### Finalization -/

/-- R190 XORI: bits 63:8 never change, bits 7:0 are XORed with the immediate; the micro-ROM uses XORI v2, 0xFF only. -/
def Obligations.XoriTouchesTheLowByteOnly : Prop :=
  ∀ (rd : VReg) (imm : BitVec 8) (s : State),
    encode (.xori rd imm) = 0x6000 ||| ((bitsOfVReg rd).setWidth 16 <<< 10) ||| imm.setWidth 16 ∧
    (∀ a r k, decode (romAt microRom a) = .instr (.xori r k) → r = .v2 ∧ k = 0xFF) ∧
    ∃ t, exec (.xori rd imm) s = .next t ∧
      (∀ j, j < 8 → (t.readV rd).getLsbD j = ((s.readV rd).getLsbD j != imm.getLsbD j)) ∧
      (∀ j, 8 ≤ j → (t.readV rd).getLsbD j = (s.readV rd).getLsbD j) ∧
      (∀ r, r ≠ rd → t.readV r = s.readV r) ∧ t.upc.toNat = (s.upc.toNat + 1) % 64 ∧
      t = { s with v0 := t.v0, v1 := t.v1, v2 := t.v2, v3 := t.v3, upc := t.upc }

/-- R191 RED. -/
def Obligations.RedReducesTheFourWords : Prop :=
  encode .red = 0xA000 ∧ (∀ a : MicroAddr, romAt microRom a = 0xA000 ↔ a = 0x0D) ∧
  ∀ s : State, exec .red s = .next { s with digest := s.v0 ^^^ s.v1 ^^^ s.v2 ^^^ s.v3, upc := s.upc + 1 }

/-! ### The sequencer -/

/-- R201 WAIT. -/
def Obligations.WaitHoldsUntilBusy : Prop :=
  encode .wait = 0x1000 ∧ (∀ a : MicroAddr, romAt microRom a = 0x1000 ↔ a = 0x00) ∧
  (∀ s : State, s.busy = true → exec .wait s = .next { s with upc := s.upc + 1 }) ∧
  (∀ s : State, s.busy = false → exec .wait s = .next s)

/-- R202 HALT. -/
def Obligations.HaltSetsDoneAndReturnsToIdle : Prop :=
  encode .halt = 0xB000 ∧ (∀ a : MicroAddr, romAt microRom a = 0xB000 ↔ a = 0x0E) ∧
  ∀ s : State, exec .halt s = .next { s with busy := false, done := true, upc := 0 }

/-- R203 BFW: the unsigned test on (inlen - ptr) mod 2^64; taken to t, else upc + 1; where the micro-ROM reaches it, ptr
is a multiple of 8 and the subtraction does not wrap. -/
def Obligations.BfwBranchesOnAFullWord : Prop :=
  (∀ t : MicroAddr, encode (.bfw t) = 0xC000 ||| t.setWidth 16) ∧
  (∀ a t, decode (romAt microRom a) = .instr (.bfw t) ↔ a = 0x02 ∧ t = 0x0F) ∧
  (∀ (t : MicroAddr) (s : State), 8 ≤ (s.inlen.toNat + (2 ^ 64 - s.ptr.toNat)) % 2 ^ 64 →
    exec (.bfw t) s = .next { s with upc := t }) ∧
  (∀ (t : MicroAddr) (s : State), (s.inlen.toNat + (2 ^ 64 - s.ptr.toNat)) % 2 ^ 64 < 8 →
    exec (.bfw t) s = .next { s with upc := s.upc + 1 }) ∧
  (∀ s : State, Inv s → s.upc = 0x02 → s.ptr.toNat % 8 = 0 ∧ s.ptr.toNat ≤ s.inlen.toNat - s.inlen.toNat % 8 ∧
    (s.inlen.toNat + (2 ^ 64 - s.ptr.toNat)) % 2 ^ 64 = s.inlen.toNat - s.ptr.toNat)

/-- R204 JMP. -/
def Obligations.JmpSetsUpcOnly : Prop :=
  (∀ t : MicroAddr, encode (.jmp t) = 0xD000 ||| t.setWidth 16) ∧
  (∀ a t, decode (romAt microRom a) = .instr (.jmp t) ↔ a = 0x14 ∧ t = 0x02) ∧
  ∀ (t : MicroAddr) (s : State), exec (.jmp t) s = .next { s with upc := t }

/-- R205 CALL. -/
def Obligations.CallLinksTheNextAddress : Prop :=
  (∀ t : MicroAddr, encode (.call t) = 0xE000 ||| t.setWidth 16) ∧
  (∀ a t, decode (romAt microRom a) = .instr (.call t) ↔
    t = 0x15 ∧ a ∈ [0x05, 0x06, 0x09, 0x0A, 0x0B, 0x0C, 0x11, 0x12]) ∧
  ∀ (t : MicroAddr) (s : State), exec (.call t) s =
    .next { s with lr := BitVec.ofNat 6 ((s.upc.toNat + 1) % 64), upc := t }

/-- R206 RET; where the micro-ROM reaches it, lr holds what a CALL wrote. -/
def Obligations.RetGoesToTheLink : Prop :=
  encode .ret = 0xF000 ∧ (∀ a : MicroAddr, romAt microRom a = 0xF000 ↔ a = 0x23) ∧
  (∀ s : State, exec .ret s = .next { s with upc := s.lr }) ∧
  (∀ s : State, Inv s → s.upc = 0x23 → s.lr ∈ returnAddrs)

/-! ### Frames -/

/-- R20, column "written by" for the micro-operations: a register changes only by an operation that the table lists
for it; k0, k1, inlen, the micro-ROM and every byte of message memory by none (R63, R83). The schedule is log 7, the
transcripts log 9, draws log 3. -/
def Obligations.OperationsWriteOnlyTheirRegisters : Prop :=
  ∀ (s t : State) (i : Instr), exec i s = .next t →
    (∀ r, t.readV r ≠ s.readV r → i = .init ∨ (∃ q, i = .add r q) ∨ (∃ n, i = .rotl r n) ∨ (∃ q, i = .xor r q) ∨
      i = .xorm r ∨ ∃ k, i = .xori r k) ∧
    (t.m ≠ s.m → i = .ldw ∨ i = .ldp) ∧ (t.ptr ≠ s.ptr → i = .init ∨ i = .ldw) ∧
    (t.lr ≠ s.lr → ∃ a, i = .call a) ∧ (t.digest ≠ s.digest → i = .red) ∧
    (t.busy ≠ s.busy → i = .halt) ∧ (t.done ≠ s.done → i = .halt) ∧
    (t.msgReads ≠ s.msgReads → i = .ldw ∨ i = .ldp) ∧
    (∀ a, Memory.read t.msg a = Memory.read s.msg a) ∧
    t.k0 = s.k0 ∧ t.k1 = s.k1 ∧ t.inlen = s.inlen ∧ t.rom = s.rom ∧ t.msg = s.msg ∧ t.buflen = s.buflen ∧
    t.schedule = s.schedule ∧ t.hostSeen = s.hostSeen ∧ t.draws = s.draws

/-- R20, R21, R40: no host step but the reset input touches a datapath register, upc, lr or digest, whatever the host
does, nor the micro-ROM; only placing a message touches MSG. Placing is log 5, the schedule log 7, the port's
transcript log 9, draws log 3. -/
def Obligations.HostStepsLeaveTheDatapathAlone : Prop :=
  ∀ (s t : State) (h : HostStep), hostStep h s = .next t → h ≠ .reset →
    t.v0 = s.v0 ∧ t.v1 = s.v1 ∧ t.v2 = s.v2 ∧ t.v3 = s.v3 ∧ t.m = s.m ∧ t.ptr = s.ptr ∧ t.upc = s.upc ∧ t.lr = s.lr ∧
    t.digest = s.digest ∧ t.rom = s.rom ∧ t.schedule = s.schedule ∧ t.msgReads = s.msgReads ∧ t.draws = s.draws ∧
    ((∀ bytes, h ≠ .place bytes) → t.msg = s.msg ∧ t.buflen = s.buflen ∧
      ∀ a, Memory.read t.msg a = Memory.read s.msg a)

/-- R63: the block performs no memory write of any kind: an engine step leaves every byte of the message as it was. -/
def Obligations.EngineNeverWritesMemory : Prop :=
  ∀ s t : State, engineStep s = .next t →
    t.msg = s.msg ∧ t.buflen = s.buflen ∧ ∀ a, Memory.read t.msg a = Memory.read s.msg a

/-- R80, U3: while BUSY = 1 no step of any agent changes the message, and placing one is refused. The placing step is
log 5. -/
def Obligations.MessageIsFixedWhileBusy : Prop :=
  (∀ s t : State, s.busy = true → step s = .next t → t.msg = s.msg ∧ t.buflen = s.buflen) ∧
  (∀ (s : State) (bytes : List Byte), s.busy = true → hostStep (.place bytes) s = .refused .messageChange)

/-- R273 step 2, R61 (the model's placing step, log 5): an idle machine takes a message; MSG is then these bytes, BUFLEN
their number, and nothing else changes. -/
def Obligations.PlacedMessageReadsBack : Prop :=
  ∀ (s : State) (bytes : List Byte), s.busy = false → bytes.length ≤ 2 ^ 64 →
    ∃ t, hostStep (.place bytes) s = .next t ∧ t.buflen = bytes.length ∧
      (∀ a, a < bytes.length → bytes[a]? = some (Memory.read t.msg a)) ∧
      t = { s with msg := t.msg, buflen := t.buflen }

/-! ### The host interface -/

/-- R39: the effect of HostWrite at each of the six offsets, and refusal at any other offset or width (R38). -/
def Obligations.HostWriteByOffset : Prop :=
  ∀ (s : State) (val : Word),
    hostStep (.write 0x00 8 val) s =
      .next (if val.getLsbD 0 = true ∧ s.busy = false then { s with busy := true, done := false } else s) ∧
    hostStep (.write 0x10 8 val) s = .next (if s.busy = false then { s with k0 := val } else s) ∧
    hostStep (.write 0x18 8 val) s = .next (if s.busy = false then { s with k1 := val } else s) ∧
    hostStep (.write 0x20 8 val) s = .next (if s.busy = false then { s with inlen := val } else s) ∧
    hostStep (.write 0x08 8 val) s = .next s ∧ hostStep (.write 0x28 8 val) s = .next s ∧
    ∀ off size : Nat, size ≠ 8 ∨ off ∉ [0x00, 0x08, 0x10, 0x18, 0x20, 0x28] →
      hostStep (.write off size val) s = .refused .hostAccess

/-- R40: the value HostRead returns at each of the six offsets; no register changes; refusal elsewhere (R38). R40 changes
no state: the note of the value returned is the model's own field hostSeen (log 9). -/
def Obligations.HostReadByOffset : Prop :=
  ∀ s : State,
    hostStep (.read 0x00 8) s = .next { s with hostSeen := s.hostSeen ++ [0] } ∧
    hostStep (.read 0x08 8) s = .next { s with hostSeen :=
      s.hostSeen ++ [BitVec.ofNat 64 ((if s.done then 2 else 0) + (if s.busy then 1 else 0))] } ∧
    hostStep (.read 0x10 8) s = .next { s with hostSeen := s.hostSeen ++ [0] } ∧
    hostStep (.read 0x18 8) s = .next { s with hostSeen := s.hostSeen ++ [0] } ∧
    hostStep (.read 0x20 8) s = .next { s with hostSeen := s.hostSeen ++ [s.inlen] } ∧
    hostStep (.read 0x28 8) s = .next { s with hostSeen := s.hostSeen ++ [if s.done then s.digest else 0] } ∧
    ∀ off size : Nat, size ≠ 8 ∨ off ∉ [0x00, 0x08, 0x10, 0x18, 0x20, 0x28] →
      hostStep (.read off size) s = .refused .hostAccess

/-- R209, R37: an accepted START hides the old digest at once: it sets BUSY, clears DONE, writes nothing else, and a
read of DIGEST then returns 0 (noted: log 9). -/
def Obligations.StartHidesTheOldDigest : Prop :=
  ∀ (s : State) (val : Word), s.busy = false → val.getLsbD 0 = true →
    ∃ t, hostStep (.write 0x00 8 val) s = .next t ∧ t = { s with busy := true, done := false } ∧
      hostStep (.read 0x28 8) t = .next { t with hostSeen := s.hostSeen ++ [0] }

/-- R41: while BUSY = 1 writes to K0, K1 and INLEN change nothing, and no step but the reset input changes the key or
the length. -/
def Obligations.KeyAndLengthAreLockedWhileBusy : Prop :=
  (∀ (s : State) (off : Nat) (val : Word), s.busy = true → off ∈ [0x10, 0x18, 0x20] →
    hostStep (.write off 8 val) s = .next s) ∧
  (∀ s t : State, s.busy = true → notReset s = true → step s = .next t →
    t.k0 = s.k0 ∧ t.k1 = s.k1 ∧ t.inlen = s.inlen)

/-- R40, R41, R209: while BUSY = 1 no host access disturbs the hash: every HostRead and HostWrite leaves the whole state
as it is, but for the note of what a read returned (log 9). -/
def Obligations.HostAccessesDoNotDisturbARunningHash : Prop :=
  ∀ (s t : State) (h : HostStep), s.busy = true → h ≠ .reset → hostStep h s = .next t →
    t = { s with hostSeen := t.hostSeen }

/-- R15, R35: what a host read returns depends on BUSY, DONE, INLEN and, with DONE = 1, the digest alone; never on
v0..v3, m, k0, k1, ptr, upc or lr. What is returned is noted in hostSeen (log 9). -/
def Obligations.HostCannotSeeKeyOrState : Prop :=
  ∀ (s s' t t' : State) (off size : Nat), s.busy = s'.busy → s.done = s'.done → s.inlen = s'.inlen →
    (s.done = true → s.digest = s'.digest) → s.hostSeen = s'.hostSeen →
    hostStep (.read off size) s = .next t → hostStep (.read off size) s' = .next t' → t.hostSeen = t'.hostSeen

/-- R37, R212: in every state of the invariant with a hash in progress, DIGEST reads 0 (noted: log 9). -/
def Obligations.NoIntermediateDigestIsRead : Prop :=
  ∀ s : State, Inv s → s.busy = true →
    hostStep (.read 0x28 8) s = .next { s with hostSeen := s.hostSeen ++ [0] }

/-- R243: done_o is DONE, and it changes only by HALT, an accepted START or the reset input. Whose step it is stands
in the schedule (log 7). -/
def Obligations.DoneOutputChangesOnlyByHaltStartReset : Prop :=
  (∀ s : State, doneOut s = s.done) ∧
  ∀ s t : State, step s = .next t → doneOut t ≠ doneOut s →
    (engineTurn s = true ∧ decode (fetch s) = .instr .halt ∧ doneOut t = true) ∨
    (doneOut t = false ∧ ((nextTurn s).1 = .host .reset ∨
      ∃ val : Word, (nextTurn s).1 = .host (.write 0x00 8 val) ∧ val.getLsbD 0 = true ∧ s.busy = false))

/-! ### Reset -/

/-- R44, R270, R271: the reset input, in any state: the specified registers are 0 and what is outside the block
(message, schedule, transcripts) stays (log 17), and the micro-ROM (R83); what v0..v3, m, ptr and lr hold is left open
(free values, log 3), and nothing is said of it. -/
def Obligations.ResetInputClearsTheSpecifiedRegisters : Prop :=
  ∀ s : State, ∃ t, hostStep .reset s = .next t ∧ t.upc = 0 ∧ t.busy = false ∧ t.done = false ∧ t.digest = 0 ∧
    t.k0 = 0 ∧ t.k1 = 0 ∧ t.inlen = 0 ∧ t.rom = s.rom ∧ t.msg = s.msg ∧ t.buflen = s.buflen ∧
    t.schedule = s.schedule ∧ t.hostSeen = s.hostSeen ∧ t.msgReads = s.msgReads ∧
    (∀ a, Memory.read t.msg a = Memory.read s.msg a) ∧
    (s.rom = microRom → decode (fetch t) = .instr .wait ∧ engineStep t = .next t)

/-- R44, R272: the state after reset is idle at WAIT with the specified registers 0, and the engine's step changes
nothing. The empty schedule is log 7. -/
def Obligations.ResetStateIsIdle : Prop :=
  State.reset.upc = 0 ∧ State.reset.busy = false ∧ State.reset.done = false ∧ State.reset.digest = 0 ∧
  State.reset.k0 = 0 ∧ State.reset.k1 = 0 ∧ State.reset.inlen = 0 ∧ State.reset.rom = microRom ∧
  decode (fetch State.reset) = .instr .wait ∧ step State.reset = .next State.reset

/-! ### Invariants -/

/-- R212: the invariant holds at reset. The message and the buffer at reset are log 4. -/
def Obligations.ResetMeetsTheSequencerConditions : Prop := Inv State.reset

/-- R212 items 1, 2, 3 (first sentence), 4 and 5, with R83 and the canonical message memory: every step of every agent
keeps them. MSG as a canonical list is log 4. -/
def Obligations.EveryStepKeepsTheSequencerConditions : Prop :=
  ∀ s t : State, Inv s → step s = .next t → Inv t

/-- R61 as the model holds MSG (log 4): every step keeps message memory canonical, inside the buffer, and the buffer
inside the offset space, whatever the micro-ROM holds. -/
def Obligations.EveryStepKeepsMemoryCanonical : Prop :=
  ∀ s t : State, MessageOk s → step s = .next t → MessageOk t

/-- R29: BUSY and DONE are never both 1, whatever the micro-ROM holds. -/
def Obligations.BusyAndDoneNeverMeet : Prop :=
  ∀ s t : State, ¬(s.busy = true ∧ s.done = true) → step s = .next t → ¬(t.busy = true ∧ t.done = true)

/-- R138: control is independent of data: two engine steps from states that agree on upc, lr, inlen, ptr, BUSY and the
micro-ROM lead to states that agree on them again, whatever the key, the message and the state words are. -/
def Obligations.ControlDependsOnTheLengthOnly : Prop :=
  ∀ s s' t t' : State, s.upc = s'.upc → s.lr = s'.lr → s.inlen = s'.inlen → s.ptr = s'.ptr → s.busy = s'.busy →
    s.rom = s'.rom → engineStep s = .next t → engineStep s' = .next t' →
    t.upc = t'.upc ∧ t.lr = t'.lr ∧ t.inlen = t'.inlen ∧ t.ptr = t'.ptr ∧ t.busy = t'.busy ∧ t.rom = t'.rom

/-! ### The micro-program -/

/-- R136: CALL RND and the fifteen steps of RND are one application of SipRound. -/
def Obligations.CallRndIsOneSipRound : Prop :=
  ∀ s : State, s.rom = microRom → s.schedule = [] → decode (fetch s) = .instr (.call 0x15) →
    run 16 s = .next { withWords s (Reference.sipRound (words s)) with upc := s.upc + 1, lr := s.upc + 1 }

/-- R164: one pass of the absorption loop is one Compress of the word at ptr, and N passes from INIT's ptr = 0 are
Absorb. The note of the access is log 9. -/
def Obligations.AbsorptionLoopCompressesEachWord : Prop :=
  ([0x02, 0x0F, 0x10, 0x11, 0x12, 0x13, 0x14] : List MicroAddr).map (romAt microRom) =
    [0xC00F, 0x3000, 0x5C00, 0xE015, 0xE015, 0x5000, 0xD002] ∧
  (∀ s : State, s.rom = microRom → s.schedule = [] → s.upc = 0x02 → s.ptr.toNat + 8 ≤ s.inlen.toNat →
    s.inlen.toNat ≤ s.buflen →
    run 37 s = .next { withWords s (Reference.compress (words s)
        (Reference.wordAt (Memory.read s.msg) s.ptr.toNat)) with
      m := Reference.wordAt (Memory.read s.msg) s.ptr.toNat, ptr := s.ptr + 8, lr := 0x13,
      msgReads := s.msgReads ++ [{ off := s.ptr.toNat, count := 8 }] }) ∧
  (∀ s : State, s.rom = microRom → s.schedule = [] → s.upc = 0x02 → s.ptr = 0 → s.inlen.toNat ≤ s.buflen →
    ∃ t, run (37 * (s.inlen.toNat / 8)) s = .next t ∧ t.upc = 0x02 ∧
      words t = Reference.absorb (Memory.read s.msg) (s.inlen.toNat / 8) (words s) ∧
      t.ptr.toNat = 8 * (s.inlen.toNat / 8))

/-- R184: from 0x03 the final block is 35 steps and one Compress of the padding word. The note of the access
is log 9. -/
def Obligations.FinalBlockCompressesThePaddingWord : Prop :=
  ([0x03, 0x04, 0x05, 0x06, 0x07] : List MicroAddr).map (romAt microRom) =
    [0x4000, 0x5C00, 0xE015, 0xE015, 0x5000] ∧
  ∀ s : State, s.rom = microRom → s.schedule = [] → s.upc = 0x03 → s.ptr.toNat = 8 * (s.inlen.toNat / 8) →
    s.inlen.toNat ≤ s.buflen →
    run 35 s = .next { withWords s (Reference.compress (words s)
        (Reference.padWord (Memory.read s.msg) s.inlen.toNat)) with
      m := Reference.padWord (Memory.read s.msg) s.inlen.toNat, upc := 0x08, lr := 0x07,
      msgReads := s.msgReads ++ accessOf s.ptr.toNat (s.inlen.toNat % 8) }

/-- R194: from 0x08 finalization is 66 steps and gives Finalize of the state words. -/
def Obligations.FinalizationGivesTheReducedDigest : Prop :=
  ([0x08, 0x09, 0x0A, 0x0B, 0x0C, 0x0D] : List MicroAddr).map (romAt microRom) =
    [0x68FF, 0xE015, 0xE015, 0xE015, 0xE015, 0xA000] ∧
  ∀ s : State, s.rom = microRom → s.schedule = [] → s.upc = 0x08 →
    run 66 s = .next { withWords s (Reference.finalRounds (words s)) with
      digest := Reference.finalize (words s), upc := 0x0E, lr := 0x0D }

/-- R211: from an idle machine with inlen ≤ BUFLEN, an accepted START and then 105 + 37 * floor(inlen / 8) engine steps
give BUSY = 0, DONE = 1, upc = 0 and the digest of the message; key, length and message unchanged; the reads made are
those of R71 (noted: log 9). Also what v0..v3, m, ptr and lr hold then (R22, log 11). -/
def Obligations.StartedHashGivesTheDigest : Prop :=
  ∀ (s : State) (val : Word), s.rom = microRom → s.busy = false → s.upc = 0 → s.inlen.toNat ≤ s.buflen →
    val.getLsbD 0 = true → s.schedule = [.host (.write 0x00 8 val)] →
    run (1 + (105 + 37 * (s.inlen.toNat / 8))) s = .next
      { withWords s (Reference.finalRounds (Reference.absorbed (Memory.read s.msg) s.inlen.toNat s.k0 s.k1)) with
        digest := Reference.hash (Memory.read s.msg) s.inlen.toNat s.k0 s.k1
        busy := false, done := true, upc := 0, schedule := []
        m := Reference.padWord (Memory.read s.msg) s.inlen.toNat
        ptr := BitVec.ofNat 64 (8 * (s.inlen.toNat / 8)), lr := 0x0D
        msgReads := s.msgReads ++ Reference.readsOf s.inlen.toNat }

/-- R213, R214: from a started hash there are 105 + 37 * floor(inlen / 8) steps; every engine step of a hash in progress
takes exactly one off, and none are left exactly when the engine is idle. -/
def Obligations.EachEngineStepCountsDown : Prop :=
  (∀ s : State, s.busy = true → s.upc = 0 → stepsLeft s = 105 + 37 * (s.inlen.toNat / 8)) ∧
  (∀ s t : State, Inv s → s.busy = true → engineStep s = .next t → stepsLeft s = stepsLeft t + 1) ∧
  (∀ s : State, Inv s → (stepsLeft s = 0 ↔ s.busy = false))

/-- R214, R240, R212: in every state of the invariant whose message fits its buffer, the engine's step is enabled: no
micro-operation faults. An idle WAIT answers the state it holds in; that a hash in progress moves on at each step is
EachEngineStepCountsDown. That the ENGINE is due stands in the schedule (log 7). -/
def Obligations.EngineAlwaysStepsWithinTheBuffer : Prop :=
  ∀ s : State, Inv s → s.inlen.toNat ≤ s.buflen → engineTurn s = true → ∃ t, step s = .next t

/-- R14, R61, R71: the digest depends on the key and on the message bytes below inlen only. -/
def Obligations.HashDependsOnTheMessageOnly : Prop :=
  ∀ (input input' : Nat → Byte) (inlen : Nat) (k0 k1 : Word), (∀ a, a < inlen → input a = input' a) →
    Reference.hash input inlen k0 k1 = Reference.hash input' inlen k0 k1

/-- R22, R42: what v0..v3, m, ptr and lr hold when a hash is started does not matter: after its steps two machines
that differ in them only are equal in everything. Only engine steps due is an empty schedule (log 7). -/
def Obligations.LeftoverRegistersDoNotMatter : Prop :=
  ∀ (s : State) (v : Reference.V) (m' ptr' : Word) (lr' : MicroAddr), s.rom = microRom → s.schedule = [] →
    s.busy = true → s.upc = 0 → s.inlen.toNat ≤ s.buflen →
    ∃ t, run (105 + 37 * (s.inlen.toNat / 8)) s = .next t ∧
      run (105 + 37 * (s.inlen.toNat / 8)) { withWords s v with m := m', ptr := ptr', lr := lr' } = .next t
end

