-- ==== Sys2Proof/Laws/Bits.lean ====
section
/-! SUPPORT. What the packing of bytes and the length byte hold, bit by bit (R13, R69, R137, R181). -/

namespace Sys2Proof.Machine

/-- inlen mod 8 as R137 writes it. -/
theorem leftOf_eq (x : Word) : leftOf x = x.toNat % 8 := by
  simp [leftOf]

theorem leftOf_lt (x : Word) : leftOf x < 8 := by
  rw [leftOf_eq]
  omega

/-- Byte k of bytes packed from position p up is the byte k - p of the list, and 0 outside it. -/
theorem packLE_bits (bs : List Byte) (p : Nat) (k j : Nat) (hj : j < 8) (h : p + bs.length ≤ 8) :
    (packLE p bs).getLsbD (8 * k + j) = if p ≤ k ∧ k < p + bs.length then (bs.getD (k - p) 0).getLsbD j else false := by
  induction bs generalizing p with
  | nil => simp [packLE]
  | cons b bs ih =>
    simp only [List.length_cons] at h
    rw [packLE, BitVec.getLsbD_or, ih (p + 1) (by omega)]
    simp only [zext64, BitVec.getLsbD_shiftLeft, BitVec.getLsbD_setWidth, List.length_cons]
    by_cases h1 : k < p
    · rw [if_neg (by omega), if_neg (by omega)]
      have : 8 * k + j < 8 * p := by omega
      simp [this]
    · by_cases h2 : k = p
      · subst h2
        rw [if_neg (by omega), if_pos (by omega)]
        have h3 : 8 * k + j < 64 := by omega
        have h4 : ¬(8 * k + j < 8 * k) := by omega
        have h5 : 8 * k + j - 8 * k = j := by omega
        have h6 : j < 64 := by omega
        simp [h3, h4, h5, h6, -BitVec.getLsbD_eq_getElem]
      · have h3 : ¬(8 * k + j < 8 * p) := by omega
        have h4 : 8 ≤ 8 * k + j - 8 * p := by omega
        rw [BitVec.getLsbD_of_ge b _ h4]
        have h5 : (p + 1 ≤ k ∧ k < p + 1 + bs.length) ↔ (p ≤ k ∧ k < p + (bs.length + 1)) := by omega
        have h6 : k - p = (k - (p + 1)) + 1 := by omega
        simp only [h5, Bool.and_false, Bool.false_or, h6, List.getD_cons_succ]

/-- The length byte is bits 63:56; the rest is 0. -/
theorem lengthByte_bits (x : Word) (b : Nat) : (lengthByte x).getLsbD b =
    if 56 ≤ b ∧ b < 64 then x.getLsbD (b - 56) else false := by
  simp only [lengthByte, zext64, BitVec.getLsbD_shiftLeft, BitVec.getLsbD_setWidth, BitVec.getLsbD_extractLsb']
  by_cases h : 56 ≤ b ∧ b < 64
  · have h2 : ¬b < 56 := by omega
    have h3 : b - 56 < 64 := by omega
    have h4 : b - 56 < 8 := by omega
    simp [h, h2, h3, h4, -BitVec.getLsbD_eq_getElem]
  · rw [if_neg h]
    by_cases h1 : b < 56
    · simp [h1]
    · have h2 : ¬b < 64 := by omega
      simp [h1, h2]

end Sys2Proof.Machine
end

