-- ==== Sys2Proof/Laws/Ops.lean ====
section
/-! SUPPORT. What the shared operations over message memory, the micro-ROM and the schedule can do. -/

namespace Sys2Proof.Machine

/-! ### Message memory -/

@[simp] theorem Memory.read_nil (a : Nat) : Memory.read [] a = Memory.unlisted := rfl

theorem Memory.wfFrom_mono {lo lo' : Nat} (h : lo' ≤ lo) (mem : Memory) (hw : Memory.wfFrom lo mem = true) :
    Memory.wfFrom lo' mem = true := by
  cases mem with
  | nil => rfl
  | cons c rest =>
    simp only [Memory.wfFrom, Bool.and_eq_true, decide_eq_true_eq] at hw ⊢
    exact ⟨⟨by omega, hw.1.2⟩, hw.2⟩

/-- An offset below every listed one reads as unlisted. -/
theorem Memory.read_below {lo a : Nat} (mem : Memory) (hw : Memory.wfFrom lo mem = true) (h : a < lo) :
    Memory.read mem a = Memory.unlisted := by
  induction mem generalizing lo with
  | nil => rfl
  | cons c rest ih =>
    simp only [Memory.wfFrom, Bool.and_eq_true, decide_eq_true_eq] at hw
    rw [Memory.read, if_neg (by omega)]
    exact ih hw.2 (by omega)

theorem Memory.wfFrom_cell_append {lo a : Nat} {x : Byte} {rest : Memory} (h : lo ≤ a)
    (hr : Memory.wfFrom (a + 1) rest = true) : Memory.wfFrom lo (Memory.cell a x ++ rest) = true := by
  unfold Memory.cell
  split
  · exact Memory.wfFrom_mono (by omega) _ hr
  · rename_i hx
    simp [Memory.wfFrom, h, hx, hr]

theorem Memory.write_wfFrom {lo a : Nat} (x : Byte) (mem : Memory) (hw : Memory.wfFrom lo mem = true) (h : lo ≤ a) :
    Memory.wfFrom lo (Memory.write mem a x) = true := by
  induction mem generalizing lo with
  | nil => simpa [Memory.write] using Memory.wfFrom_cell_append (x := x) (rest := []) h rfl
  | cons c rest ih =>
    obtain ⟨b, y⟩ := c
    have hw' := hw
    simp only [Memory.wfFrom, Bool.and_eq_true, decide_eq_true_eq] at hw'
    simp only [Memory.write]
    split
    · rename_i hab
      exact Memory.wfFrom_cell_append h (by simp [Memory.wfFrom, hw'.1.2, hw'.2]; omega)
    · split
      · rename_i hab
        subst hab
        exact Memory.wfFrom_cell_append h hw'.2
      · simp only [Memory.wfFrom, Bool.and_eq_true, decide_eq_true_eq]
        exact ⟨hw'.1, ih hw'.2 (by omega)⟩

/-- Writing one byte keeps the canonical form. -/
theorem Memory.write_wf (mem : Memory) (a : Nat) (x : Byte) (hw : Memory.wf mem = true) :
    Memory.wf (Memory.write mem a x) = true := Memory.write_wfFrom x mem hw (Nat.zero_le a)

/-- Writing bytes keeps the canonical form. -/
theorem Memory.writeAll_wf (bytes : List Byte) (mem : Memory) (a : Nat) (hw : Memory.wf mem = true) :
    Memory.wf (Memory.writeAll mem a bytes) = true := by
  induction bytes generalizing mem a with
  | nil => exact hw
  | cons x xs ih => exact ih _ _ (Memory.write_wf mem a x hw)

theorem Memory.below_cell {n a : Nat} (x : Byte) (h : a < n) : Memory.below n (Memory.cell a x) = true := by
  unfold Memory.cell
  split <;> simp [Memory.below, h]

theorem Memory.below_append {n : Nat} {l r : Memory} (hl : Memory.below n l = true) (hr : Memory.below n r = true) :
    Memory.below n (l ++ r) = true := by
  simp only [Memory.below, List.all_append, Bool.and_eq_true] at *
  exact ⟨hl, hr⟩

theorem Memory.write_below {n a : Nat} (x : Byte) (mem : Memory) (hb : Memory.below n mem = true) (h : a < n) :
    Memory.below n (Memory.write mem a x) = true := by
  induction mem with
  | nil => exact Memory.below_cell x h
  | cons c rest ih =>
    have hb' := hb
    simp only [Memory.below, List.all_cons, Bool.and_eq_true] at hb'
    simp only [Memory.write]
    split
    · exact Memory.below_append (Memory.below_cell x h) hb
    · split
      · exact Memory.below_append (Memory.below_cell x h) hb'.2
      · have := ih hb'.2
        simp only [Memory.below, List.all_cons, Bool.and_eq_true] at this ⊢
        exact ⟨hb'.1, this⟩

/-- Bytes placed below n leave every listed offset below n. -/
theorem Memory.writeAll_below {n : Nat} (bytes : List Byte) (mem : Memory) (a : Nat)
    (hb : Memory.below n mem = true) (h : a + bytes.length ≤ n) :
    Memory.below n (Memory.writeAll mem a bytes) = true := by
  induction bytes generalizing mem a with
  | nil => exact hb
  | cons x xs ih =>
    simp only [List.length_cons] at h
    exact ih _ _ (Memory.write_below x mem hb (by omega)) (by omega)

theorem Memory.read_cell_append_same (a : Nat) (x : Byte) (rest : Memory)
    (hr : Memory.wfFrom (a + 1) rest = true) : Memory.read (Memory.cell a x ++ rest) a = x := by
  unfold Memory.cell
  split
  · rename_i hx
    rw [hx, List.nil_append]
    exact Memory.read_below rest hr (by omega)
  · simp [Memory.read]

theorem Memory.read_cell_append_other {a b : Nat} (x : Byte) (rest : Memory) (h : b ≠ a) :
    Memory.read (Memory.cell a x ++ rest) b = Memory.read rest b := by
  unfold Memory.cell
  split
  · rfl
  · simp [Memory.read, h]

theorem Memory.read_write_same_from {lo a : Nat} (x : Byte) (mem : Memory) (hw : Memory.wfFrom lo mem = true) :
    Memory.read (Memory.write mem a x) a = x := by
  induction mem generalizing lo with
  | nil => simpa [Memory.write] using Memory.read_cell_append_same a x [] rfl
  | cons c rest ih =>
    obtain ⟨b, y⟩ := c
    have hw' := hw
    simp only [Memory.wfFrom, Bool.and_eq_true, decide_eq_true_eq] at hw'
    simp only [Memory.write]
    split
    · exact Memory.read_cell_append_same a x _ (by simp [Memory.wfFrom, hw'.1.2, hw'.2]; omega)
    · split
      · rename_i hab
        subst hab
        exact Memory.read_cell_append_same a x _ hw'.2
      · rename_i hlt hne
        rw [Memory.read, if_neg hne]
        exact ih hw'.2

/-- A read after a write to the same offset gives the byte written. -/
theorem Memory.read_write_same (mem : Memory) (a : Nat) (x : Byte) (hw : Memory.wf mem = true) :
    Memory.read (Memory.write mem a x) a = x := Memory.read_write_same_from x mem hw

/-- A write leaves every other offset alone. -/
theorem Memory.read_write_other (mem : Memory) (a b : Nat) (x : Byte) (h : b ≠ a) :
    Memory.read (Memory.write mem a x) b = Memory.read mem b := by
  induction mem with
  | nil =>
    have := Memory.read_cell_append_other x [] h
    simpa [Memory.write] using this
  | cons c rest ih =>
    obtain ⟨e, y⟩ := c
    simp only [Memory.write]
    split
    · exact Memory.read_cell_append_other x _ h
    · split
      · rename_i hae
        subst hae
        rw [Memory.read_cell_append_other x _ h, Memory.read, if_neg h]
      · simp only [Memory.read, ih]

/-- Placed bytes read back: offset a + i holds byte i, every other offset what it held. -/
theorem Memory.read_writeAll (bytes : List Byte) (mem : Memory) (a b : Nat) (hw : Memory.wf mem = true) :
    Memory.read (Memory.writeAll mem a bytes) b =
      if a ≤ b ∧ b < a + bytes.length then bytes.getD (b - a) 0 else Memory.read mem b := by
  induction bytes generalizing mem a with
  | nil =>
    have : ¬(a ≤ b ∧ b < a + ([] : List Byte).length) := by simp
    rw [if_neg this]
    rfl
  | cons x xs ih =>
    rw [Memory.writeAll, ih _ _ (Memory.write_wf mem a x hw)]
    simp only [List.length_cons]
    by_cases hba : b = a
    · subst hba
      rw [if_neg (by omega), if_pos (by omega), Memory.read_write_same mem b x hw]
      simp
    · rw [Memory.read_write_other mem a b x hba]
      by_cases hin : a + 1 ≤ b ∧ b < a + 1 + xs.length
      · rw [if_pos hin, if_pos (by omega)]
        obtain ⟨k, rfl⟩ : ∃ k, b = a + 1 + k := ⟨b - (a + 1), by omega⟩
        have h1 : a + 1 + k - (a + 1) = k := by omega
        have h2 : a + 1 + k - a = k + 1 := by omega
        simp [h1, h2]
      · rw [if_neg hin, if_neg (by omega)]

@[simp] theorem Memory.bytes_length (mem : Memory) (off n : Nat) : (Memory.bytes mem off n).length = n := by
  simp [Memory.bytes]

/-- The bytes a read answers are the message's, in offset order. -/
theorem Memory.bytes_getD (mem : Memory) (off n k : Nat) (h : k < n) :
    (Memory.bytes mem off n).getD k 0 = Memory.read mem (off + k) := by
  simp [Memory.bytes, h]

/-- Everything MemRead can answer (R62, R76). -/
theorem memRead_cases (s : State) (off n : Nat) :
    (off + n ≤ s.buflen ∧ memRead s off n = some (Memory.bytes s.msg off n)) ∨
      (s.buflen < off + n ∧ memRead s off n = none) := by
  unfold memRead
  by_cases h : off + n ≤ s.buflen
  · exact .inl ⟨h, if_pos h⟩
  · exact .inr ⟨by omega, if_neg h⟩

theorem memRead_some {s : State} {off n : Nat} (h : off + n ≤ s.buflen) :
    memRead s off n = some (Memory.bytes s.msg off n) := if_pos h

theorem memRead_none {s : State} {off n : Nat} (h : s.buflen < off + n) : memRead s off n = none :=
  if_neg (by omega)

/-! ### The micro-ROM -/

@[simp] theorem romAt_romWith_same (rom : Vector ControlWord 64) (a : MicroAddr) (w : ControlWord) :
    romAt (romWith rom a w) a = w := by
  simp [romAt, romWith]

theorem romAt_romWith_other (rom : Vector ControlWord 64) (a b : MicroAddr) (w : ControlWord) (h : b ≠ a) :
    romAt (romWith rom a w) b = romAt rom b := by
  have : a.toNat ≠ b.toNat := fun e => h (BitVec.eq_of_toNat_eq e.symm)
  simp [romAt, romWith, this]

@[simp] theorem fetch_withControlWord (s : State) (w : ControlWord) : fetch (s.withControlWord w) = w := by
  simp [fetch, State.withControlWord]

/-! ### The schedule -/

theorem nextTurn_nil {s : State} (h : s.schedule = []) : nextTurn s = (.engine, s) := by
  simp [nextTurn, h]

theorem nextTurn_cons {s : State} {t : Turn} {rest : List Turn} (h : s.schedule = t :: rest) :
    nextTurn s = (t, { s with schedule := rest }) := by
  simp [nextTurn, h]

/-- Taking a turn off the schedule changes the schedule only. -/
theorem nextTurn_frame (s : State) : (nextTurn s).2 = { s with schedule := (nextTurn s).2.schedule } := by
  unfold nextTurn
  split <;> rfl

/-- After `withControlWord` the ENGINE is due. -/
theorem nextTurn_withControlWord (s : State) (w : ControlWord) :
    (nextTurn (s.withControlWord w)).1 = .engine := by
  rcases h : s.schedule with _ | ⟨_ | _, _⟩ <;> simp [nextTurn, State.withControlWord, engineDue, h]

end Sys2Proof.Machine
end

