-- ==== Sys2Proof/Laws/PerInstr.lean ====
section
/-! SUPPORT. Statements made for every instruction, one lemma per constructor (LAWS.json): its control word is well
formed and written in the instruction's own format (30_encoding R92, R93). -/

namespace Sys2Proof.Laws.EncodingForm

/-- The encoding of an instruction is no reserved word, and its operation code has the instruction's format. -/
def Statement (i : Instr) : Prop :=
  wellFormedWord (encode i) = true ∧ formatOf (fieldOp (encode i)) = some (formatOfInstr i)

theorem wait : Statement .wait := by unfold Statement; decide
theorem init : Statement .init := by unfold Statement; decide
theorem ldw : Statement .ldw := by unfold Statement; decide
theorem ldp : Statement .ldp := by unfold Statement; decide
theorem xorm (rd : VReg) : Statement (.xorm rd) := by cases rd <;> unfold Statement <;> decide
theorem xori (rd : VReg) (imm : BitVec 8) : Statement (.xori rd imm) := by
  revert imm
  cases rd <;> unfold Statement <;> decide
theorem add (rd rs : VReg) : Statement (.add rd rs) := by cases rd <;> cases rs <;> unfold Statement <;> decide
theorem rotl (rd : VReg) (n : BitVec 6) : Statement (.rotl rd n) := by
  revert n
  cases rd <;> unfold Statement <;> decide
theorem xor (rd rs : VReg) : Statement (.xor rd rs) := by cases rd <;> cases rs <;> unfold Statement <;> decide
theorem red : Statement .red := by unfold Statement; decide
theorem halt : Statement .halt := by unfold Statement; decide
theorem bfw (t : MicroAddr) : Statement (.bfw t) := by
  revert t
  unfold Statement
  decide
theorem jmp (t : MicroAddr) : Statement (.jmp t) := by
  revert t
  unfold Statement
  decide
theorem call (t : MicroAddr) : Statement (.call t) := by
  revert t
  unfold Statement
  decide
theorem ret : Statement .ret := by unfold Statement; decide

end Sys2Proof.Laws.EncodingForm
end

