-- ==== Sys2Proof/Laws/State.lean ====
section
/-! SUPPORT. One lemma per field per named update of State, so that no later proof unfolds a record update. -/

namespace Sys2Proof.Machine

@[simp] theorem State.advance_v0 (s : State) : s.advance.v0 = s.v0 := rfl
@[simp] theorem State.advance_v1 (s : State) : s.advance.v1 = s.v1 := rfl
@[simp] theorem State.advance_v2 (s : State) : s.advance.v2 = s.v2 := rfl
@[simp] theorem State.advance_v3 (s : State) : s.advance.v3 = s.v3 := rfl
@[simp] theorem State.advance_m (s : State) : s.advance.m = s.m := rfl
@[simp] theorem State.advance_k0 (s : State) : s.advance.k0 = s.k0 := rfl
@[simp] theorem State.advance_k1 (s : State) : s.advance.k1 = s.k1 := rfl
@[simp] theorem State.advance_inlen (s : State) : s.advance.inlen = s.inlen := rfl
@[simp] theorem State.advance_ptr (s : State) : s.advance.ptr = s.ptr := rfl
@[simp] theorem State.advance_upc (s : State) : s.advance.upc = s.upc + 1 := rfl
@[simp] theorem State.advance_lr (s : State) : s.advance.lr = s.lr := rfl
@[simp] theorem State.advance_digest (s : State) : s.advance.digest = s.digest := rfl
@[simp] theorem State.advance_busy (s : State) : s.advance.busy = s.busy := rfl
@[simp] theorem State.advance_done (s : State) : s.advance.done = s.done := rfl
@[simp] theorem State.advance_rom (s : State) : s.advance.rom = s.rom := rfl
@[simp] theorem State.advance_msg (s : State) : s.advance.msg = s.msg := rfl
@[simp] theorem State.advance_buflen (s : State) : s.advance.buflen = s.buflen := rfl
@[simp] theorem State.advance_schedule (s : State) : s.advance.schedule = s.schedule := rfl
@[simp] theorem State.advance_hostSeen (s : State) : s.advance.hostSeen = s.hostSeen := rfl
@[simp] theorem State.advance_msgReads (s : State) : s.advance.msgReads = s.msgReads := rfl
@[simp] theorem State.advance_draws (s : State) : s.advance.draws = s.draws := rfl

@[simp] theorem State.jump_v0 (s : State) (t : MicroAddr) : (s.jump t).v0 = s.v0 := rfl
@[simp] theorem State.jump_v1 (s : State) (t : MicroAddr) : (s.jump t).v1 = s.v1 := rfl
@[simp] theorem State.jump_v2 (s : State) (t : MicroAddr) : (s.jump t).v2 = s.v2 := rfl
@[simp] theorem State.jump_v3 (s : State) (t : MicroAddr) : (s.jump t).v3 = s.v3 := rfl
@[simp] theorem State.jump_m (s : State) (t : MicroAddr) : (s.jump t).m = s.m := rfl
@[simp] theorem State.jump_k0 (s : State) (t : MicroAddr) : (s.jump t).k0 = s.k0 := rfl
@[simp] theorem State.jump_k1 (s : State) (t : MicroAddr) : (s.jump t).k1 = s.k1 := rfl
@[simp] theorem State.jump_inlen (s : State) (t : MicroAddr) : (s.jump t).inlen = s.inlen := rfl
@[simp] theorem State.jump_ptr (s : State) (t : MicroAddr) : (s.jump t).ptr = s.ptr := rfl
@[simp] theorem State.jump_upc (s : State) (t : MicroAddr) : (s.jump t).upc = t := rfl
@[simp] theorem State.jump_lr (s : State) (t : MicroAddr) : (s.jump t).lr = s.lr := rfl
@[simp] theorem State.jump_digest (s : State) (t : MicroAddr) : (s.jump t).digest = s.digest := rfl
@[simp] theorem State.jump_busy (s : State) (t : MicroAddr) : (s.jump t).busy = s.busy := rfl
@[simp] theorem State.jump_done (s : State) (t : MicroAddr) : (s.jump t).done = s.done := rfl
@[simp] theorem State.jump_rom (s : State) (t : MicroAddr) : (s.jump t).rom = s.rom := rfl
@[simp] theorem State.jump_msg (s : State) (t : MicroAddr) : (s.jump t).msg = s.msg := rfl
@[simp] theorem State.jump_buflen (s : State) (t : MicroAddr) : (s.jump t).buflen = s.buflen := rfl
@[simp] theorem State.jump_schedule (s : State) (t : MicroAddr) : (s.jump t).schedule = s.schedule := rfl
@[simp] theorem State.jump_hostSeen (s : State) (t : MicroAddr) : (s.jump t).hostSeen = s.hostSeen := rfl
@[simp] theorem State.jump_msgReads (s : State) (t : MicroAddr) : (s.jump t).msgReads = s.msgReads := rfl
@[simp] theorem State.jump_draws (s : State) (t : MicroAddr) : (s.jump t).draws = s.draws := rfl

@[simp] theorem State.noteRead_v0 (s : State) (off n : Nat) : (s.noteRead off n).v0 = s.v0 := rfl
@[simp] theorem State.noteRead_v1 (s : State) (off n : Nat) : (s.noteRead off n).v1 = s.v1 := rfl
@[simp] theorem State.noteRead_v2 (s : State) (off n : Nat) : (s.noteRead off n).v2 = s.v2 := rfl
@[simp] theorem State.noteRead_v3 (s : State) (off n : Nat) : (s.noteRead off n).v3 = s.v3 := rfl
@[simp] theorem State.noteRead_m (s : State) (off n : Nat) : (s.noteRead off n).m = s.m := rfl
@[simp] theorem State.noteRead_k0 (s : State) (off n : Nat) : (s.noteRead off n).k0 = s.k0 := rfl
@[simp] theorem State.noteRead_k1 (s : State) (off n : Nat) : (s.noteRead off n).k1 = s.k1 := rfl
@[simp] theorem State.noteRead_inlen (s : State) (off n : Nat) : (s.noteRead off n).inlen = s.inlen := rfl
@[simp] theorem State.noteRead_ptr (s : State) (off n : Nat) : (s.noteRead off n).ptr = s.ptr := rfl
@[simp] theorem State.noteRead_upc (s : State) (off n : Nat) : (s.noteRead off n).upc = s.upc := rfl
@[simp] theorem State.noteRead_lr (s : State) (off n : Nat) : (s.noteRead off n).lr = s.lr := rfl
@[simp] theorem State.noteRead_digest (s : State) (off n : Nat) : (s.noteRead off n).digest = s.digest := rfl
@[simp] theorem State.noteRead_busy (s : State) (off n : Nat) : (s.noteRead off n).busy = s.busy := rfl
@[simp] theorem State.noteRead_done (s : State) (off n : Nat) : (s.noteRead off n).done = s.done := rfl
@[simp] theorem State.noteRead_rom (s : State) (off n : Nat) : (s.noteRead off n).rom = s.rom := rfl
@[simp] theorem State.noteRead_msg (s : State) (off n : Nat) : (s.noteRead off n).msg = s.msg := rfl
@[simp] theorem State.noteRead_buflen (s : State) (off n : Nat) : (s.noteRead off n).buflen = s.buflen := rfl
@[simp] theorem State.noteRead_schedule (s : State) (off n : Nat) : (s.noteRead off n).schedule = s.schedule := rfl
@[simp] theorem State.noteRead_hostSeen (s : State) (off n : Nat) : (s.noteRead off n).hostSeen = s.hostSeen := rfl
@[simp] theorem State.noteRead_msgReads (s : State) (off n : Nat) : (s.noteRead off n).msgReads = s.msgReads ++ accessOf off n := rfl
@[simp] theorem State.noteRead_draws (s : State) (off n : Nat) : (s.noteRead off n).draws = s.draws := rfl

@[simp] theorem State.finish_v0 (s : State) : s.finish.v0 = s.v0 := rfl
@[simp] theorem State.finish_v1 (s : State) : s.finish.v1 = s.v1 := rfl
@[simp] theorem State.finish_v2 (s : State) : s.finish.v2 = s.v2 := rfl
@[simp] theorem State.finish_v3 (s : State) : s.finish.v3 = s.v3 := rfl
@[simp] theorem State.finish_m (s : State) : s.finish.m = s.m := rfl
@[simp] theorem State.finish_k0 (s : State) : s.finish.k0 = s.k0 := rfl
@[simp] theorem State.finish_k1 (s : State) : s.finish.k1 = s.k1 := rfl
@[simp] theorem State.finish_inlen (s : State) : s.finish.inlen = s.inlen := rfl
@[simp] theorem State.finish_ptr (s : State) : s.finish.ptr = s.ptr := rfl
@[simp] theorem State.finish_upc (s : State) : s.finish.upc = s.upc := rfl
@[simp] theorem State.finish_lr (s : State) : s.finish.lr = s.lr := rfl
@[simp] theorem State.finish_digest (s : State) : s.finish.digest = s.digest := rfl
@[simp] theorem State.finish_busy (s : State) : s.finish.busy = false := rfl
@[simp] theorem State.finish_done (s : State) : s.finish.done = true := rfl
@[simp] theorem State.finish_rom (s : State) : s.finish.rom = s.rom := rfl
@[simp] theorem State.finish_msg (s : State) : s.finish.msg = s.msg := rfl
@[simp] theorem State.finish_buflen (s : State) : s.finish.buflen = s.buflen := rfl
@[simp] theorem State.finish_schedule (s : State) : s.finish.schedule = s.schedule := rfl
@[simp] theorem State.finish_hostSeen (s : State) : s.finish.hostSeen = s.hostSeen := rfl
@[simp] theorem State.finish_msgReads (s : State) : s.finish.msgReads = s.msgReads := rfl
@[simp] theorem State.finish_draws (s : State) : s.finish.draws = s.draws := rfl

@[simp] theorem State.start_v0 (s : State) : s.start.v0 = s.v0 := by cases h : s.busy <;> simp [State.start, h]
@[simp] theorem State.start_v1 (s : State) : s.start.v1 = s.v1 := by cases h : s.busy <;> simp [State.start, h]
@[simp] theorem State.start_v2 (s : State) : s.start.v2 = s.v2 := by cases h : s.busy <;> simp [State.start, h]
@[simp] theorem State.start_v3 (s : State) : s.start.v3 = s.v3 := by cases h : s.busy <;> simp [State.start, h]
@[simp] theorem State.start_m (s : State) : s.start.m = s.m := by cases h : s.busy <;> simp [State.start, h]
@[simp] theorem State.start_k0 (s : State) : s.start.k0 = s.k0 := by cases h : s.busy <;> simp [State.start, h]
@[simp] theorem State.start_k1 (s : State) : s.start.k1 = s.k1 := by cases h : s.busy <;> simp [State.start, h]
@[simp] theorem State.start_inlen (s : State) : s.start.inlen = s.inlen := by cases h : s.busy <;> simp [State.start, h]
@[simp] theorem State.start_ptr (s : State) : s.start.ptr = s.ptr := by cases h : s.busy <;> simp [State.start, h]
@[simp] theorem State.start_upc (s : State) : s.start.upc = s.upc := by cases h : s.busy <;> simp [State.start, h]
@[simp] theorem State.start_lr (s : State) : s.start.lr = s.lr := by cases h : s.busy <;> simp [State.start, h]
@[simp] theorem State.start_digest (s : State) : s.start.digest = s.digest := by cases h : s.busy <;> simp [State.start, h]
@[simp] theorem State.start_busy (s : State) : s.start.busy = true := by cases h : s.busy <;> simp [State.start, h]
@[simp] theorem State.start_done (s : State) : s.start.done = (s.busy && s.done) := by cases h : s.busy <;> simp [State.start, h]
@[simp] theorem State.start_rom (s : State) : s.start.rom = s.rom := by cases h : s.busy <;> simp [State.start, h]
@[simp] theorem State.start_msg (s : State) : s.start.msg = s.msg := by cases h : s.busy <;> simp [State.start, h]
@[simp] theorem State.start_buflen (s : State) : s.start.buflen = s.buflen := by cases h : s.busy <;> simp [State.start, h]
@[simp] theorem State.start_schedule (s : State) : s.start.schedule = s.schedule := by cases h : s.busy <;> simp [State.start, h]
@[simp] theorem State.start_hostSeen (s : State) : s.start.hostSeen = s.hostSeen := by cases h : s.busy <;> simp [State.start, h]
@[simp] theorem State.start_msgReads (s : State) : s.start.msgReads = s.msgReads := by cases h : s.busy <;> simp [State.start, h]
@[simp] theorem State.start_draws (s : State) : s.start.draws = s.draws := by cases h : s.busy <;> simp [State.start, h]

@[simp] theorem State.writeV_m (s : State) (r : VReg) (x : Word) : (s.writeV r x).m = s.m := by cases r <;> rfl
@[simp] theorem State.writeV_k0 (s : State) (r : VReg) (x : Word) : (s.writeV r x).k0 = s.k0 := by cases r <;> rfl
@[simp] theorem State.writeV_k1 (s : State) (r : VReg) (x : Word) : (s.writeV r x).k1 = s.k1 := by cases r <;> rfl
@[simp] theorem State.writeV_inlen (s : State) (r : VReg) (x : Word) : (s.writeV r x).inlen = s.inlen := by cases r <;> rfl
@[simp] theorem State.writeV_ptr (s : State) (r : VReg) (x : Word) : (s.writeV r x).ptr = s.ptr := by cases r <;> rfl
@[simp] theorem State.writeV_upc (s : State) (r : VReg) (x : Word) : (s.writeV r x).upc = s.upc := by cases r <;> rfl
@[simp] theorem State.writeV_lr (s : State) (r : VReg) (x : Word) : (s.writeV r x).lr = s.lr := by cases r <;> rfl
@[simp] theorem State.writeV_digest (s : State) (r : VReg) (x : Word) : (s.writeV r x).digest = s.digest := by cases r <;> rfl
@[simp] theorem State.writeV_busy (s : State) (r : VReg) (x : Word) : (s.writeV r x).busy = s.busy := by cases r <;> rfl
@[simp] theorem State.writeV_done (s : State) (r : VReg) (x : Word) : (s.writeV r x).done = s.done := by cases r <;> rfl
@[simp] theorem State.writeV_rom (s : State) (r : VReg) (x : Word) : (s.writeV r x).rom = s.rom := by cases r <;> rfl
@[simp] theorem State.writeV_msg (s : State) (r : VReg) (x : Word) : (s.writeV r x).msg = s.msg := by cases r <;> rfl
@[simp] theorem State.writeV_buflen (s : State) (r : VReg) (x : Word) : (s.writeV r x).buflen = s.buflen := by cases r <;> rfl
@[simp] theorem State.writeV_schedule (s : State) (r : VReg) (x : Word) : (s.writeV r x).schedule = s.schedule := by cases r <;> rfl
@[simp] theorem State.writeV_hostSeen (s : State) (r : VReg) (x : Word) : (s.writeV r x).hostSeen = s.hostSeen := by cases r <;> rfl
@[simp] theorem State.writeV_msgReads (s : State) (r : VReg) (x : Word) : (s.writeV r x).msgReads = s.msgReads := by cases r <;> rfl
@[simp] theorem State.writeV_draws (s : State) (r : VReg) (x : Word) : (s.writeV r x).draws = s.draws := by cases r <;> rfl

@[simp] theorem State.readV_writeV_same (s : State) (r : VReg) (x : Word) : (s.writeV r x).readV r = x := by
  cases r <;> rfl

@[simp] theorem State.readV_writeV_other (s : State) (r q : VReg) (x : Word) (h : q ≠ r) :
    (s.writeV r x).readV q = s.readV q := by
  cases r <;> cases q <;> first | rfl | exact absurd rfl h

@[simp] theorem State.readV_advance (s : State) (r : VReg) : s.advance.readV r = s.readV r := by cases r <;> rfl

@[simp] theorem State.readV_jump (s : State) (t : MicroAddr) (r : VReg) : (s.jump t).readV r = s.readV r := by
  cases r <;> rfl

/-- A write to a state word touches the four state words only. -/
theorem State.writeV_frame (s : State) (r : VReg) (x : Word) :
    s.writeV r x = { s with v0 := (s.writeV r x).v0, v1 := (s.writeV r x).v1, v2 := (s.writeV r x).v2,
                            v3 := (s.writeV r x).v3 } := by
  cases r <;> rfl

end Sys2Proof.Machine
end

