-- ==== Sys2Proof/Laws/Step.lean ====
section
/-! SUPPORT. What LDW and LDP, a host step, an engine step and a step of the machine can do, said once each; and runs. -/

namespace Sys2Proof.Machine

/-- Everything LDW can do (R160, R76). -/
theorem execLdw_cases (s : State) :
    (s.ptr.toNat + 8 ≤ s.buflen ∧
      execLdw s = .next { s with m := le64 (Memory.bytes s.msg s.ptr.toNat 8), ptr := s.ptr + 8, upc := s.upc + 1,
                                 msgReads := s.msgReads ++ [{ off := s.ptr.toNat, count := 8 }] }) ∨
      (s.buflen < s.ptr.toNat + 8 ∧ execLdw s = .fault .messageReadStuck) := by
  rcases memRead_cases s s.ptr.toNat 8 with ⟨h, e⟩ | ⟨h, e⟩
  · exact .inl ⟨h, by simp [execLdw, wordOperand, e, State.advance, State.noteRead, accessOf]⟩
  · exact .inr ⟨h, by simp [execLdw, wordOperand, e]⟩

/-- Everything LDP can do (R181, R76). -/
theorem execLdp_cases (s : State) :
    (s.ptr.toNat + leftOf s.inlen ≤ s.buflen ∧
      execLdp s = .next { s with m := paddingWord s.inlen (Memory.bytes s.msg s.ptr.toNat (leftOf s.inlen)),
                                 upc := s.upc + 1,
                                 msgReads := s.msgReads ++ accessOf s.ptr.toNat (leftOf s.inlen) }) ∨
      (s.buflen < s.ptr.toNat + leftOf s.inlen ∧ execLdp s = .fault .messageReadStuck) := by
  rcases memRead_cases s s.ptr.toNat (leftOf s.inlen) with ⟨h, e⟩ | ⟨h, e⟩
  · exact .inl ⟨h, by simp [execLdp, tailOperand, e, State.advance, State.noteRead]⟩
  · exact .inr ⟨h, by simp [execLdp, tailOperand, e]⟩

/-- Everything HostWrite can do, by target (R39): an accepted START, one of the three locked registers, or nothing. -/
theorem hostWriteReg_cases (s : State) (r : HostReg) (val : Word) :
    hostWriteReg s r val = s ∨
      (s.busy = false ∧
        ((r = .ctrl ∧ val.getLsbD 0 = true ∧ hostWriteReg s r val = { s with busy := true, done := false }) ∨
          (r = .k0 ∧ hostWriteReg s r val = { s with k0 := val }) ∨
          (r = .k1 ∧ hostWriteReg s r val = { s with k1 := val }) ∨
          (r = .inlen ∧ hostWriteReg s r val = { s with inlen := val }))) := by
  cases hb : s.busy <;> cases hv : val.getLsbD 0 <;> cases r <;>
    simp [hostWriteReg, State.start, hb, hv, -BitVec.getLsbD_eq_getElem]

/-- The offset of a register (R32). -/
theorem hostRegAt_ctrl {off : Nat} (h : hostRegAt off = some .ctrl) : off = 0x00 := by
  unfold hostRegAt at h
  split at h <;> simp_all

/-- Everything a host step can answer with a next state (R39, R40, R270, R273). -/
theorem hostStep_next {h : HostStep} {s t : State} (e : hostStep h s = .next t) :
    (∃ v, t = { s with hostSeen := s.hostSeen ++ [v] }) ∨
      (∃ off val r, h = .write off 8 val ∧ hostRegAt off = some r ∧ t = hostWriteReg s r val) ∨
      (∃ bytes, h = .place bytes ∧ s.busy = false ∧ bytes.length ≤ Config.offsetSpace ∧
        t = { s with msg := Memory.writeAll [] 0 bytes, buflen := bytes.length }) ∨
      (h = .reset ∧ t = s.resetInput) := by
  cases h with
  | read off size =>
    simp only [hostStep, hostRead] at e
    split at e
    · cases e
    · cases e
      exact .inl ⟨_, rfl⟩
  | write off size val =>
    simp only [hostStep, hostWrite] at e
    split at e
    · cases e
    · rename_i r hr
      cases e
      unfold hostTarget Config.hostAccessBytes at hr
      split at hr
      · rename_i hsz
        subst hsz
        exact .inr (.inl ⟨off, val, r, rfl, hr, rfl⟩)
      · cases hr
  | place bytes =>
    simp only [hostStep, hostPlace] at e
    split at e
    · cases e
    · split at e
      · cases e
      · rename_i hb hl
        cases e
        exact .inr (.inr (.inl ⟨bytes, rfl, by simpa using hb, by omega, rfl⟩))
  | reset =>
    simp only [hostStep] at e
    cases e
    exact .inr (.inr (.inr ⟨rfl, rfl⟩))

/-- An engine step that answers a next state performed a decoded instruction (R200). -/
theorem engineStep_next {s t : State} (e : engineStep s = .next t) :
    ∃ i, decode (fetch s) = .instr i ∧ exec i s = .next t := by
  unfold engineStep perform at e
  split at e
  · rename_i i hi
    exact ⟨i, hi, e⟩
  · cases e

theorem engineStep_of_decode {s : State} {i : Instr} (h : decode (fetch s) = .instr i) : engineStep s = exec i s := by
  simp [engineStep, perform, h]

/-- A step that answers a next state is ENGINE's or HOST's, on the state with the turn taken off the schedule. -/
theorem step_next {s t : State} (e : step s = .next t) :
    ((nextTurn s).1 = .engine ∧ engineStep (nextTurn s).2 = .next t) ∨
      ∃ h, (nextTurn s).1 = .host h ∧ hostStep h (nextTurn s).2 = .next t := by
  unfold step at e
  split at e
  · rename_i q hq
    exact .inl ⟨by rw [hq], by rw [hq]; exact e⟩
  · rename_i h q hq
    exact .inr ⟨h, by rw [hq], by rw [hq]; exact e⟩

theorem step_engine {s : State} (h : s.schedule = []) : step s = engineStep s := by
  simp [step, nextTurn_nil h]

theorem step_turn {s : State} {t : Turn} {rest : List Turn} (h : s.schedule = t :: rest) :
    step s = match t with
      | .engine => engineStep { s with schedule := rest }
      | .host x => hostStep x { s with schedule := rest } := by
  simp only [step, nextTurn_cons h]
  cases t <;> rfl

/-- The step at an address of the micro-ROM, the address and its instruction given. -/
theorem step_at {s : State} (a : MicroAddr) {i : Instr} (hr : s.rom = microRom) (hs : s.schedule = []) (hu : s.upc = a)
    (hd : decode (romAt microRom a) = .instr i) : step s = exec i s := by
  rw [step_engine hs]
  exact engineStep_of_decode (by rw [fetch, hr, hu, hd])

end Sys2Proof.Machine

namespace Sys2Proof.Safety

open Sys2Proof.Machine

theorem run_zero (s : State) : run 0 s = .next s := rfl

theorem run_succ (n : Nat) (s : State) :
    run (n + 1) s = match step s with
      | .next t => run n t
      | .fault r => .fault r
      | .refused r => .refused r := by rfl

theorem run_step {n : Nat} {s t : State} (h : step s = .next t) : run (n + 1) s = run n t := by
  rw [run_succ, h]

/-- A run is one part after the other. -/
theorem run_add {m n : Nat} {s t : State} (h : run m s = .next t) : run (m + n) s = run n t := by
  induction m generalizing s with
  | zero =>
    rw [run_zero] at h
    cases h
    rw [Nat.zero_add]
  | succ m ih =>
    rw [run_succ] at h
    rw [show m + 1 + n = (m + n) + 1 by omega, run_succ]
    split at h
    · rename_i q hq
      exact ih h
    · cases h
    · cases h

/-- A run that starts with the step of the instruction at an address, then goes on. -/
theorem run_next {s t : State} {n : Nat} {o : Host.Outcome State Fault Refusal} (a : MicroAddr) (i : Instr)
    (hr : s.rom = microRom) (hs : s.schedule = []) (hu : s.upc = a) (hd : decode (romAt microRom a) = .instr i)
    (he : exec i s = .next t) (hn : run n t = o) : run (n + 1) s = o :=
  (run_step ((step_at a hr hs hu hd).trans he)).trans hn

/-- A run whose first part is known. -/
theorem run_part {m n : Nat} {s t : State} {o : Host.Outcome State Fault Refusal} (h : run m s = .next t)
    (hn : run n t = o) : run (m + n) s = o := (run_add h).trans hn

/-- `run` is the host interface's run of `Sys2Proof.core`. -/
theorem run_eq_core (n : Nat) (s : State) : run n s = Host.Core.run Sys2Proof.core n s := by
  induction n generalizing s with
  | zero => rfl
  | succ n ih =>
    rw [run_succ]
    cases h : step s with
    | next t =>
      have h' : Sys2Proof.core.step s = .next t := h
      simp only [Host.Core.run, h']
      exact ih t
    | fault r =>
      have h' : Sys2Proof.core.step s = .fault r := h
      simp only [Host.Core.run, h']
      rfl
    | refused r =>
      have h' : Sys2Proof.core.step s = .refused r := h
      simp only [Host.Core.run, h']
      rfl

end Sys2Proof.Safety
end

