-- ==== Sys2Proof/Tests/Slice0.lean ====
section
/-! SUPPORT. Tests of the model. Expected values are the spec's own (95_test_vectors, 30_encoding, the rules' examples),
never the model's answers. The `test_witness_…` theorems show states that meet the hypotheses of the statements in
Certificates/Slice0/Obligations.lean. -/

open Sys2Proof Sys2Proof.Machine Sys2Proof.Safety

namespace Sys2Proof.Tests

/-! ### Helpers -/

def nextOf : Host.Outcome State Fault Refusal → Option State
  | .next t => some t
  | .fault _ => none
  | .refused _ => none

def faultOf : Host.Outcome State Fault Refusal → Option Fault
  | .next _ => none
  | .fault f => some f
  | .refused _ => none

def refusalOf : Host.Outcome State Fault Refusal → Option Refusal
  | .next _ => none
  | .fault _ => none
  | .refused r => some r

/-- What one engine step of a control word leaves, read through a field. -/
def after {α : Type} (s : State) (w : Nat) (field : State → α) : Option α :=
  (nextOf (step (s.withFetchWord 16 w))).map field

/-- A state with these state words. -/
def withV (v0 v1 v2 v3 : Word) : State := { State.reset with v0 := v0, v1 := v1, v2 := v2, v3 := v3 }

/-- A hash in progress at a micro-ROM address, with a buffer of 16 bytes. -/
def running (a : MicroAddr) (inlen ptr : Word) (lr : MicroAddr) : State :=
  { State.reset with busy := true, upc := a, inlen := inlen, ptr := ptr, lr := lr, buflen := 16 }

/-- The message of 95_test_vectors section 2.3 with bytes 11 22 .. 88 at offsets 8 to 15. -/
def message16 : Memory :=
  Memory.writeAll [] 8 [0x11, 0x22, 0x33, 0x44, 0x55, 0x66, 0x77, 0x88]

/-! ### Well-formed words: one ill-formed word for each check (30_encoding R98, R99) -/

theorem test_illformed_opcode_zero : opcodeAssigned 0x0FFF = false ∧ wellFormedWord 0x0FFF = false := by decide
theorem test_illformed_format_z : zerosRespected 0x1001 = false ∧ wellFormedWord 0x1001 = false := by decide
theorem test_illformed_format_r : zerosRespected 0x7101 = false ∧ wellFormedWord 0x7101 = false := by decide
theorem test_illformed_format_s : zerosRespected 0x8440 = false ∧ wellFormedWord 0x8440 = false := by decide
theorem test_illformed_format_m : zerosRespected 0x5100 = false ∧ wellFormedWord 0x5100 = false := by decide
theorem test_illformed_format_i : zerosRespected 0x6900 = false ∧ wellFormedWord 0x6900 = false := by decide
theorem test_illformed_format_b : zerosRespected 0xC040 = false ∧ wellFormedWord 0xC040 = false := by decide

/-! ### Decoding: a word of every operation written out bit by bit from R91 to R97 -/

theorem test_decode_wait : decode 0b0001000000000000 = .instr .wait := by decide
theorem test_decode_init : decode 0b0010000000000000 = .instr .init := by decide
theorem test_decode_ldw : decode 0b0011000000000000 = .instr .ldw := by decide
theorem test_decode_ldp : decode 0b0100000000000000 = .instr .ldp := by decide
theorem test_decode_xorm : decode 0b0101110000000000 = .instr (.xorm .v3) := by decide
theorem test_decode_xori : decode 0b0110100011111111 = .instr (.xori .v2 0xFF) := by decide
theorem test_decode_add : decode 0b0111000100000000 = .instr (.add .v0 .v1) := by decide
theorem test_decode_rotl : decode 0b1000100000111111 = .instr (.rotl .v2 63) := by decide
theorem test_decode_xor : decode 0b1001111000000000 = .instr (.xor .v3 .v2) := by decide
theorem test_decode_red : decode 0b1010000000000000 = .instr .red := by decide
theorem test_decode_halt : decode 0b1011000000000000 = .instr .halt := by decide
theorem test_decode_bfw : decode 0b1100000000001111 = .instr (.bfw 0x0F) := by decide
theorem test_decode_jmp : decode 0b1101000000000010 = .instr (.jmp 0x02) := by decide
theorem test_decode_call : decode 0b1110000000010101 = .instr (.call 0x15) := by decide
theorem test_decode_ret : decode 0b1111000000000000 = .instr .ret := by decide
/-- 95_test_vectors section 2.9: reserved words. -/
theorem test_decode_reserved : decode 0x0000 = .reserved .opcodeZero ∧ decode 0x3100 = .reserved .mustBeZero ∧
    decode 0x8100 = .reserved .mustBeZero ∧ decode 0xD100 = .reserved .mustBeZero ∧
    decode 0xFFFF = .reserved .mustBeZero := by decide
theorem test_table_word : decodeTableWord 16 0x7F00 = some (.add .v3 .v3) ∧ decodeTableWord 16 0x2400 = none := by
  decide

/-! ### One step of each operation (95_test_vectors sections 2.1 to 2.7) -/

/-- Section 2.1 row 2: the test key. -/
theorem test_init_test_key : after { State.reset with k0 := 0x0706050403020100, k1 := 0x0f0e0d0c0b0a0908, ptr := 9 }
    0x2000 (fun t => (t.v0, t.v1, t.v2, t.v3, t.ptr)) =
    some (0x7469686173716475, 0x6b617f6d656e6665, 0x6b7f62616d677361, 0x7b6b696e727e6c7b, 0) := by decide
/-- Section 2.1 row 6: k1 reaches v1 and v3 only. -/
theorem test_init_second_key_word : after { State.reset with k1 := 0xffffffffffffffff }
    0x2000 (fun t => (t.v0, t.v1, t.v2, t.v3)) =
    some (0x736f6d6570736575, 0x9b908d9e919b9092, 0x6c7967656e657261, 0x8b9a9b9d868b9a8c) := by decide
theorem test_add_wraps : after (withV 0xffffffffffffffff 1 7 9) 0x7100 (fun t => (t.v0, t.v1, t.upc)) =
    some (0, 1, 1) := by decide
theorem test_add_doubles : after (withV 5 0x4000000000000001 7 9) 0x7500 (fun t => (t.v0, t.v1)) =
    some (5, 0x8000000000000002) := by decide
theorem test_rotl_13 : after (withV 5 0x0123456789abcdef 7 9) 0x840D (·.v1) = some 0x68acf13579bde024 := by decide
theorem test_rotl_63 : after (withV 5 6 0x0123456789abcdef 9) 0x883F (fun t => (t.v2, t.v3)) =
    some (0x8091a2b3c4d5e6f7, 9) := by decide
theorem test_xor : after (withV 0x0ff00ff00ff00ff0 0xff00ff00ff00ff00 7 9) 0x9400 (fun t => (t.v0, t.v1)) =
    some (0x0ff00ff00ff00ff0, 0xf0f0f0f0f0f0f0f0) := by decide
theorem test_xor_clears : after (withV 5 6 7 0x0123456789abcdef) 0x9F00 (·.v3) = some 0 := by decide
/-- R160's example: offset 8, and the access made. -/
theorem test_ldw : after { running 0x0F 16 8 0 with msg := message16 } 0x3000 (fun t => (t.m, t.ptr, t.msgReads)) =
    some (0x8877665544332211, 16, [{ off := 8, count := 8 }]) := by decide
/-- R76: one byte short of a word. -/
theorem test_ldw_stuck : faultOf (step ({ running 0x0F 16 8 0 with buflen := 15 }.withFetchWord 16 0x3000)) =
    some .messageReadStuck := by decide
theorem test_xorm : after { withV 5 6 7 0x7b6b696e727e6c7b with m := 0x0706050403020100 } 0x5C00
    (fun t => (t.v3, t.m)) = some (0x7c6d6c6a717c6d7b, 0x0706050403020100) := by decide
theorem test_xorm_v1 : after { withV 5 0 7 8 with m := 0xffffffffffffffff } 0x5400 (fun t => (t.v0, t.v1)) =
    some (5, 0xffffffffffffffff) := by decide
/-- Section 2.4, inlen = 3 with message bytes A0 + i. -/
theorem test_ldp : after { running 0x03 3 0 0 with msg := Memory.writeAll [] 0 [0xA0, 0xA1, 0xA2, 0xA3] } 0x4000
    (fun t => (t.m, t.ptr, t.msgReads)) = some (0x0300000000a2a1a0, 0, [{ off := 0, count := 3 }]) := by decide
/-- Section 2.4, inlen = 256: no leftover byte, no access, m = 0. -/
theorem test_ldp_no_leftover : after { running 0x03 256 256 0 with buflen := 256 } 0x4000 (fun t => (t.m, t.msgReads)) =
    some (0, []) := by decide
theorem test_xori_low_byte : after (withV 5 6 0xa96a4bc433869d49 8) 0x68FF (·.v2) = some 0xa96a4bc433869db6 := by decide
theorem test_xori_zero_extends : after (withV 5 0 7 8) 0x6480 (·.v1) = some 0x80 := by decide
theorem test_red : after (withV 0x4aad48c25c5f9069 0xa32eee94879e255b 0x4af430095c732a6a 0xbde5ddc2f4c59f8f) 0xA000
    (fun t => (t.digest, t.done)) = some (0x1e924b9d737700d7, false) := by decide
theorem test_wait_idle : step State.reset = .next State.reset := rfl
theorem test_wait_busy : after { State.reset with busy := true } 0x1000 (·.upc) = some 1 := by decide
theorem test_halt : after (running 0x0E 0 0 0) 0xB000 (fun t => (t.busy, t.done, t.upc)) = some (false, true, 0) := by
  decide
/-- Section 2.7: 8 >= 8 is taken, 7 < 8 is not. -/
theorem test_bfw_boundary : after (running 0x02 16 8 0) 0xC00F (·.upc) = some 0x0F ∧
    after (running 0x02 15 8 0) 0xC00F (·.upc) = some 0x03 := by decide
/-- Section 2.7: the comparison is unsigned. -/
theorem test_bfw_unsigned : after (running 0x02 0xffffffffffffffff 0 0) 0xC00F (·.upc) = some 0x0F ∧
    after (running 0x02 0xffffffffffffffff 0xfffffffffffffff8 0) 0xC00F (·.upc) = some 0x03 := by decide
theorem test_jmp : after (running 0x14 0 0 0x13) 0xD002 (fun t => (t.upc, t.lr)) = some (0x02, 0x13) := by decide
theorem test_call : after (running 0x12 0 0 0) 0xE015 (fun t => (t.upc, t.lr)) = some (0x15, 0x13) := by decide
theorem test_ret : after (running 0x23 0 0 0x0D) 0xF000 (fun t => (t.upc, t.lr)) = some (0x0D, 0x0D) := by decide
theorem test_reserved_word : faultOf (step (State.reset.withFetchWord 16 0x8440)) =
    some (.reservedWord .mustBeZero) := by decide

/-! ### The host (95_test_vectors section 2.8, by its row numbers) -/

/-- Rows 5, 6: K0 is written and reads 0. -/
theorem test_host_key : (nextOf (hostStep (.write 0x10 8 0x0123456789abcdef) State.reset)).map (·.k0) =
    some 0x0123456789abcdef ∧
    (nextOf (hostStep (.read 0x10 8) { State.reset with k0 := 7 })).map (·.hostSeen) = some [0] := by decide
/-- Rows 10, 11: only bit 0 of CTRL starts. -/
theorem test_host_start : (nextOf (hostStep (.write 0x00 8 0xfffffffffffffffe) State.reset)).map (·.busy) = some false ∧
    (nextOf (hostStep (.write 0x00 8 1) { State.reset with done := true })).map (fun t => (t.busy, t.done)) =
      some (true, false) := by decide
/-- Rows 12, 23: STATUS has BUSY in bit 0 and DONE in bit 1. -/
theorem test_host_status : (nextOf (hostStep (.read 0x08 8) (running 0x19 0 0 6))).map (·.hostSeen) = some [1] ∧
    (nextOf (hostStep (.read 0x08 8) { State.reset with done := true })).map (·.hostSeen) = some [2] := by decide
/-- Rows 15 to 17: writes and START while BUSY are ignored. -/
theorem test_host_locked : nextOf (hostStep (.write 0x20 8 8) (running 0x19 0 0 6)) = some (running 0x19 0 0 6) ∧
    nextOf (hostStep (.write 0x00 8 1) (running 0x19 0 0 6)) = some (running 0x19 0 0 6) := by decide
/-- Rows 21, 24: DIGEST is 0 until HALT. -/
theorem test_host_digest : (nextOf (hostStep (.read 0x28 8) { running 0x0E 0 0 0 with digest := 5 })).map (·.hostSeen) =
    some [0] ∧
    (nextOf (hostStep (.read 0x28 8) { State.reset with done := true, digest := 5 })).map (·.hostSeen) = some [5] := by
  decide
/-- Row 31: another width or offset is refused. -/
theorem test_host_refused : refusalOf (hostStep (.read 0x08 4) State.reset) = some .hostAccess ∧
    refusalOf (hostStep (.read 0x04 8) State.reset) = some .hostAccess ∧
    refusalOf (hostStep (.write 0x30 8 1) State.reset) = some .hostAccess := by decide
/-- Row 29: the reset input during a hash. -/
theorem test_host_reset : (nextOf (hostStep .reset { running 0x15 8 0 6 with k0 := 7, digest := 5 })).map
    (fun t => (t.k0, t.inlen, t.digest, t.busy, t.done, t.upc)) = some (0, 0, 0, false, false, 0) := by rfl
theorem test_place_while_busy : refusalOf (hostStep (.place [1, 2]) (running 0x01 0 0 0)) = some .messageChange := by
  decide

/-! ### Witnesses: the hypotheses of the statements are met, each clause at a boundary value -/

theorem test_witness_decode_word : decode 0x7100 = .instr (.add .v0 .v1) ∧
    (∀ r ∈ opcodeRows, (0x7101 : ControlWord) &&& r.mask ≠ r.pattern) := by decide
theorem test_witness_rows : rowAdd ∈ opcodeRows ∧ (0x7100 : ControlWord) &&& rowAdd.mask = rowAdd.pattern := by decide
theorem test_witness_step_engine : State.reset.schedule = [] ∧ decode (fetch State.reset) = .instr .wait ∧
    ({ State.reset with schedule := [.engine] } : State).schedule = .engine :: [] ∧
    decode (fetch ({ State.reset with schedule := [.engine] } : State)) = .instr .wait := by decide
theorem test_witness_step_reserved : engineTurn (State.reset.withFetchWord 16 0x0001) = true ∧
    decode (fetch (State.reset.withFetchWord 16 0x0001)) = .reserved .opcodeZero := by decide
theorem test_witness_table_word : decodeTableWord 16 0xF000 = some .ret := by decide
theorem test_witness_host_turn :
    ({ State.reset with schedule := [.host .reset] } : State).schedule = .host .reset :: [] := by decide
theorem test_witness_engine_stops : decode (fetch ({ running 0x0F 16 8 0 with buflen := 15 } : State)) = .instr .ldw ∧
    15 < (running 0x0F 16 8 0).ptr.toNat + 8 ∧
    decode (fetch ({ running 0x03 9 8 0 with buflen := 8 } : State)) = .instr .ldp ∧
    8 < (running 0x03 9 8 0).ptr.toNat + (running 0x03 9 8 0).inlen.toNat % 8 ∧
    decode (fetch (running 0x0F 16 8 0)) = .instr .ldw ∧ ¬16 < (running 0x0F 16 8 0).ptr.toNat + 8 := by decide
theorem test_witness_step_next : step (running 0x00 0 0 0) = .next (running 0x01 0 0 0) := rfl
theorem test_witness_unimplemented : (running 0x24 0 0 0).rom = microRom ∧ 0x24 ≤ (running 0x24 0 0 0).upc.toNat ∧
    engineTurn (running 0x24 0 0 0) = true ∧ 0x24 ≤ (running 0x3F 0 0 0).upc.toNat := by decide
theorem test_witness_other_register : VReg.v0 ≠ VReg.v1 ∧ (1 : BitVec 6) ≠ 0 := by decide
theorem test_witness_mem_read : 8 + 8 ≤ (running 0 0 0 0).buflen ∧ (running 0 0 0 0).buflen < 9 + 8 := by decide
/-- The same two clauses with no byte to read. -/
theorem test_witness_mem_read_none : 16 + 0 ≤ (running 0 0 0 0).buflen ∧ (running 0 0 0 0).buflen < 17 + 0 := by decide
theorem test_witness_ldw : (running 0x0F 16 8 0).ptr.toNat + 8 ≤ (running 0x0F 16 8 0).buflen ∧
    (running 0x0F 16 9 0).buflen < (running 0x0F 16 9 0).ptr.toNat + 8 := by decide
theorem test_witness_ldp :
    (running 0x03 16 16 0).ptr.toNat + (running 0x03 16 16 0).inlen.toNat % 8 ≤ (running 0x03 16 16 0).buflen ∧
    (running 0x03 15 9 0).ptr.toNat + (running 0x03 15 9 0).inlen.toNat % 8 ≤ (running 0x03 15 9 0).buflen ∧
    (running 0x03 15 10 0).buflen < (running 0x03 15 10 0).ptr.toNat + (running 0x03 15 10 0).inlen.toNat % 8 := by
  decide
theorem test_witness_pad_length : 2 ^ 64 - 1 < 2 ^ 64 ∧ (2 ^ 64 - 1) % 8 = 7 := by decide
/-- Lengths 1 and 257 with equal leftover bytes. -/
theorem test_witness_pad_alias : 1 % 256 = 257 % 256 ∧
    ∀ i, i < 1 % 8 → (fun _ => (0 : Byte)) (1 - 1 % 8 + i) = (fun _ => (0 : Byte)) (257 - 257 % 8 + i) := by decide
theorem test_witness_wait : (running 0x00 0 0 0).busy = true ∧ State.reset.busy = false := by decide
theorem test_witness_bfw : 8 ≤ ((16 : Word).toNat + (2 ^ 64 - (8 : Word).toNat)) % 2 ^ 64 ∧
    ((15 : Word).toNat + (2 ^ 64 - (8 : Word).toNat)) % 2 ^ 64 < 8 := by decide
theorem test_witness_exec_next : exec .ret (running 0x23 0 0 6) = .next (running 0x06 0 0 6) := rfl
theorem test_witness_host_next : hostStep (.write 0x10 8 5) State.reset = .next { State.reset with k0 := 5 } ∧
    HostStep.write 0x10 8 5 ≠ .reset ∧ ∀ bytes, HostStep.write 0x10 8 5 ≠ .place bytes := by
  refine ⟨rfl, by decide, fun bytes => ?_⟩
  simp
theorem test_witness_engine_next : engineStep (running 0x14 0 0 0) = .next (running 0x02 0 0 0) := rfl
theorem test_witness_place : State.reset.busy = false ∧ ([] : List Byte).length ≤ 2 ^ 64 ∧
    ([1, 2, 3] : List Byte).length ≤ 2 ^ 64 := by decide
theorem test_witness_host_offsets : (4 ≠ 8 ∨ 0x08 ∉ [0x00, 0x08, 0x10, 0x18, 0x20, 0x28]) ∧
    (8 ≠ 8 ∨ 0x30 ∉ [0x00, 0x08, 0x10, 0x18, 0x20, 0x28]) := by decide
theorem test_witness_start : ({ State.reset with done := true, digest := 5 } : State).busy = false ∧
    (1 : Word).getLsbD 0 = true := by decide
theorem test_witness_lock : (running 0x19 0 0 6).busy = true ∧ 0x10 ∈ [0x10, 0x18, 0x20] ∧ 0x20 ∈ [0x10, 0x18, 0x20] ∧
    notReset (running 0x19 0 0 6) = true := by decide
theorem test_witness_lock_step : step (running 0x14 0 0 0) = .next (running 0x02 0 0 0) := rfl
theorem test_witness_running_read : (running 0x19 8 0 6).busy = true ∧ HostStep.read 0x20 8 ≠ .reset ∧
    (nextOf (hostStep (.read 0x20 8) (running 0x19 8 0 6))).isSome = true := by decide
/-- Two states that differ in the key, the state words and the hidden digest, and one read of each. -/
theorem test_witness_host_cannot_see :
    hostStep (.read 0x28 8) State.reset = .next { State.reset with hostSeen := [0] } ∧
    hostStep (.read 0x28 8) { State.reset with k0 := 5, v0 := 6, digest := 7 } =
      .next { State.reset with k0 := 5, v0 := 6, digest := 7, hostSeen := [0] } := ⟨rfl, rfl⟩
theorem test_witness_done_halt : step { running 0x0E 0 0 0 with buflen := 16 } =
    .next { running 0x00 0 0 0 with busy := false, done := true } := rfl
theorem test_witness_done_start :
    step { State.reset with done := true, schedule := [.host (.write 0x00 8 1)] } =
      .next { State.reset with busy := true } ∧
    doneOut { State.reset with busy := true } ≠ doneOut { State.reset with done := true } := ⟨rfl, by decide⟩
theorem test_witness_inv_started : Inv (running 0x00 16 3 0) where
  rom := rfl
  sequenced := ⟨by decide, by decide, by decide, by decide, by decide, by decide, by decide, by decide⟩
  message := ⟨by decide, by decide, by decide⟩
theorem test_witness_inv_loop : Inv (running 0x02 16 16 0) where
  rom := rfl
  sequenced := ⟨by decide, by decide, by decide, by decide, by decide, by decide, by decide, by decide⟩
  message := ⟨by decide, by decide, by decide⟩
theorem test_witness_inv_ldw : Inv (running 0x0F 16 8 0) where
  rom := rfl
  sequenced := ⟨by decide, by decide, by decide, by decide, by decide, by decide, by decide, by decide⟩
  message := ⟨by decide, by decide, by decide⟩
theorem test_witness_inv_ldp : Inv (running 0x03 15 8 0) where
  rom := rfl
  sequenced := ⟨by decide, by decide, by decide, by decide, by decide, by decide, by decide, by decide⟩
  message := ⟨by decide, by decide, by decide⟩
theorem test_witness_inv_round : Inv (running 0x23 15 8 0x13) where
  rom := rfl
  sequenced := ⟨by decide, by decide, by decide, by decide, by decide, by decide, by decide, by decide⟩
  message := ⟨by decide, by decide, by decide⟩
theorem test_witness_enabled : (running 0x0F 16 8 0).inlen.toNat ≤ (running 0x0F 16 8 0).buflen ∧
    engineTurn (running 0x0F 16 8 0) = true := by decide
theorem test_witness_message_ok : MessageOk { State.reset with msg := [(15, 0xFF)], buflen := 16 } :=
  ⟨by decide, by decide, by decide⟩
theorem test_witness_message_step : step { State.reset with msg := [(15, 0xFF)], buflen := 16 } =
    .next { State.reset with msg := [(15, 0xFF)], buflen := 16 } := rfl
theorem test_witness_not_both : ¬((running 0x0E 0 0 0).busy = true ∧ (running 0x0E 0 0 0).done = true) := by decide
/-- Two machines at BFW with other keys, and their steps. -/
theorem test_witness_control : engineStep (running 0x02 8 0 0) = .next (running 0x0F 8 0 0) ∧
    engineStep { running 0x02 8 0 0 with k0 := 5, v0 := 6 } = .next { running 0x0F 8 0 0 with k0 := 5, v0 := 6 } :=
  ⟨rfl, rfl⟩
theorem test_witness_call_rnd : decode (fetch (running 0x05 0 0 0)) = .instr (.call 0x15) ∧
    (running 0x05 0 0 0).schedule = [] := by decide
theorem test_witness_pass : (running 0x02 16 8 0).ptr.toNat + 8 ≤ (running 0x02 16 8 0).inlen.toNat ∧
    (running 0x02 16 8 0).inlen.toNat ≤ (running 0x02 16 8 0).buflen ∧ (running 0x02 16 0 0).ptr = 0 := by decide
theorem test_witness_final_block : (running 0x03 15 8 0).ptr.toNat = 8 * ((running 0x03 15 8 0).inlen.toNat / 8) ∧
    (running 0x03 16 16 0).ptr.toNat = 8 * ((running 0x03 16 16 0).inlen.toNat / 8) ∧
    (running 0x03 16 16 0).inlen.toNat ≤ (running 0x03 16 16 0).buflen := by decide
theorem test_witness_finalization : (running 0x08 0 0 0).rom = microRom ∧ (running 0x08 0 0 0).schedule = [] ∧
    (running 0x08 0 0 0).upc = 0x08 := by decide
/-- An idle machine with a message that fills its buffer, and START scheduled. -/
theorem test_witness_hash :
    ({ State.reset with inlen := 16, buflen := 16, schedule := [.host (.write 0x00 8 1)] } : State).inlen.toNat ≤ 16 ∧
    (1 : Word).getLsbD 0 = true ∧ State.reset.rom = microRom ∧ State.reset.busy = false ∧ State.reset.upc = 0 := by decide
theorem test_witness_leftover : (running 0x00 16 5 7).busy = true ∧ (running 0x00 16 5 7).rom = microRom ∧
    (running 0x00 16 5 7).schedule = [] ∧ (running 0x00 16 5 7).inlen.toNat ≤ (running 0x00 16 5 7).buflen := by decide
/-- Two messages that agree below 3 and differ at offset 3. -/
theorem test_witness_same_message : ∀ a, a < 3 → (fun n => if n = 3 then (1 : Byte) else 0) a = (fun _ => (0 : Byte)) a := by
  decide

end Sys2Proof.Tests
end

section
/-! SUPPORT. The statements of the family 00_scope: rotation and little-endian decoding (R12, R13), the agent whose turn
it is (R7), what the digest depends on (R14) and what a host read shows (R15). -/

namespace Sys2Proof.Machine

/-! ### Rotation (R12) -/

/-- R12's rotation is the library's: for n = 0 the right-hand part of the OR is x shifted out altogether. -/
theorem rotl64_eq_rotateLeft (x : Word) (n : BitVec 6) : rotl64 x n = x.rotateLeft n.toNat := by
  rw [BitVec.rotateLeft_def, Nat.mod_eq_of_lt n.isLt]
  by_cases hn : n = 0
  · subst hn
    simp [rotl64, BitVec.ushiftRight_eq_zero]
  · rw [rotl64, if_neg hn]

@[simp] theorem rotl64_zero (x : Word) : rotl64 x 0 = x := by
  simp [rotl64]

/-- R12's formula in numbers. -/
theorem rotl64_toNat (x : Word) (n : BitVec 6) :
    (rotl64 x n).toNat = (x.toNat * 2 ^ n.toNat % 2 ^ 64 ||| x.toNat / 2 ^ (64 - n.toNat)) := by
  rw [rotl64_eq_rotateLeft, BitVec.toNat_rotateLeft, Nat.mod_eq_of_lt n.isLt, Nat.shiftLeft_eq, Nat.shiftRight_eq_div_pow]

/-- Bit i of x goes to bit (i + n) mod 64: the left-hand part of the OR holds it when i + n < 64, else the right-hand
part. -/
theorem rotl64_bit (x : Word) (n : BitVec 6) {i : Nat} (hi : i < 64) :
    (rotl64 x n).getLsbD ((i + n.toNat) % 64) = x.getLsbD i := by
  have hn : n.toNat < 64 := n.isLt
  rw [rotl64_eq_rotateLeft, BitVec.getLsbD_rotateLeft, Nat.mod_eq_of_lt hn]
  by_cases hw : i + n.toNat < 64
  · rw [Nat.mod_eq_of_lt hw, decide_eq_false (by omega), decide_eq_true hw]
    simp
  · have hmod : (i + n.toNat) % 64 = i + n.toNat - 64 := by omega
    have hsrc : 64 - n.toNat + (i + n.toNat - 64) = i := by omega
    rw [hmod, hsrc, decide_eq_true (by omega), cond_true]

/-! ### Host reads (R15, R40) -/

/-- Everything a host read that has a meaning does: it notes the value of the register it reaches. -/
theorem hostStep_read_next {off size : Nat} {s t : State} (e : hostStep (.read off size) s = .next t) :
    ∃ r, hostTarget off size = some r ∧ t = { s with hostSeen := s.hostSeen ++ [hostReadValue s r] } := by
  simp only [hostStep, hostRead] at e
  split at e
  case h_1 => cases e
  case h_2 r hr =>
    cases e
    exact ⟨r, hr, rfl⟩

/-- STATUS reads the two flags alone (R34). -/
theorem statusWord_congr {s s' : State} (hb : s.busy = s'.busy) (hd : s.done = s'.done) :
    statusWord s = statusWord s' := by
  rw [statusWord, statusWord, hb, hd]

/-- What a register reads as depends on BUSY, DONE, INLEN and a digest shown by DONE = 1 (R35, R40). -/
theorem hostReadValue_congr {s s' : State} (r : HostReg) (hb : s.busy = s'.busy) (hd : s.done = s'.done)
    (hl : s.inlen = s'.inlen) (hg : s.done = true → s.digest = s'.digest) :
    hostReadValue s r = hostReadValue s' r := by
  cases r with
  | ctrl | k0 | k1 => rfl
  | status => exact statusWord_congr hb hd
  | inlen => exact hl
  | digest =>
    cases h : s.done
    · simp [hostReadValue, ← hd, h]
    · simp [hostReadValue, ← hd, h, hg h]

namespace Reference

/-! ### The message bytes a hash reads (R14, R71) -/

variable {input input' : Nat → Byte}

/-- The word at off reads the offsets off to off + 7. -/
theorem wordAt_congr {off : Nat} (h : ∀ a, a < off + 8 → input a = input' a) :
    wordAt input off = wordAt input' off := by
  have hbytes : ∀ i ∈ List.range 8, input (off + i) = input' (off + i) := fun i hi =>
    h _ (Nat.add_lt_add_left (List.mem_range.mp hi) off)
  rw [wordAt, wordAt, List.map_congr_left hbytes]

/-- n passes read the offsets below 8n. -/
theorem absorb_congr {n : Nat} (v : V) (h : ∀ a, a < 8 * n → input a = input' a) :
    absorb input n v = absorb input' n v := by
  induction n with
  | zero => rfl
  | succ n ih =>
    rw [absorb, absorb, ih fun a ha => h a (by omega), wordAt_congr (off := 8 * n) h]

/-- The padding word reads the leftover offsets, all below inlen. -/
theorem padWord_congr {inlen : Nat} (h : ∀ a, a < inlen → input a = input' a) :
    padWord input inlen = padWord input' inlen := by
  refine List.foldl_ext _ _ _ fun b i hi => ?_
  have hi : i < inlen % 8 := List.mem_range.mp hi
  rw [h (inlen - inlen % 8 + i) (by omega)]

theorem absorbed_congr {inlen : Nat} (k0 k1 : Word) (h : ∀ a, a < inlen → input a = input' a) :
    absorbed input inlen k0 k1 = absorbed input' inlen k0 k1 := by
  rw [absorbed, absorbed, absorb_congr _ fun a ha => h a (by omega), padWord_congr h]

end Reference

end Sys2Proof.Machine

namespace Sys2Proof.Certificates

open Sys2Proof Sys2Proof.Machine

/-- Settles O16, by the library's rotation. -/
theorem rotationIsCircular : Obligations.RotationIsCircular := fun x =>
  ⟨rotl64_zero x, fun n => ⟨fun _ => rotl64_toNat x n, fun _ hi => rotl64_bit x n hi⟩⟩

/-- Settles O42: both reads reach the same register, and what it reads as is the same in both states. -/
theorem hostCannotSeeKeyOrState : Obligations.HostCannotSeeKeyOrState := by
  intro s s' t t' off size hb hd hl hg hseen e e'
  obtain ⟨r, hr, rfl⟩ := hostStep_read_next e
  obtain ⟨r', hr', rfl⟩ := hostStep_read_next e'
  obtain rfl : r = r' := Option.some.inj (hr.symm.trans hr')
  show s.hostSeen ++ [hostReadValue s r] = s'.hostSeen ++ [hostReadValue s' r]
  rw [hseen, hostReadValue_congr r hb hd hl hg]

/-- Settles O59: Finalize sees the message only through the absorbed state. -/
theorem hashDependsOnTheMessageOnly : Obligations.HashDependsOnTheMessageOnly := by
  intro input input' inlen k0 k1 h
  rw [Reference.hash, Reference.hash, Reference.absorbed_congr k0 k1 h]

/-- Settles O7, by the first turn of the schedule. -/
theorem stepTakesTheScheduledHostTurn : Obligations.StepTakesTheScheduledHostTurn :=
  fun _ _ _ hs => step_turn hs

/-- Settles O17: the packing loop run over eight bytes, its ORs regrouped from the left. -/
theorem littleEndianDecodeOfEightBytes : Obligations.LittleEndianDecodeOfEightBytes := by
  intro b0 b1 b2 b3 b4 b5 b6 b7
  simp [le64, packLE, zext64, BitVec.or_assoc]

end Sys2Proof.Certificates
end

section
/-! SUPPORT. The statements of the family 10_state: which step writes which register (R20, R21), the host's reads and
writes by offset (R39, R40), what is locked while a hash runs (R41), the two flags (R29), and that what the datapath
held before a hash does not matter (R22, R42). -/

namespace Sys2Proof.Machine

/-! ### What an operation writes (R20, column "written by") -/

/-- The operations that write one state word: ADD, ROTL, XOR, XORM and XORI into r. -/
def WritesWord (i : Instr) (r : VReg) : Prop :=
  (∃ q, i = .add r q) ∨ (∃ n, i = .rotl r n) ∨ (∃ q, i = .xor r q) ∨ i = .xorm r ∨ ∃ k, i = .xori r k

/-- What each operation may write, the values left open: a case per set of registers written. -/
inductive Writes (s : State) : Instr → State → Prop where
  | word {i : Instr} {r : VReg} (h : WritesWord i r) (x : Word) : Writes s i (s.writeV r x).advance
  | init (v0 v1 v2 v3 ptr : Word) :
      Writes s .init { s with v0 := v0, v1 := v1, v2 := v2, v3 := v3, ptr := ptr }.advance
  | ldw (m ptr : Word) (off n : Nat) : Writes s .ldw ({ s with m := m, ptr := ptr }.noteRead off n).advance
  | ldp (m : Word) (off n : Nat) : Writes s .ldp ({ s with m := m }.noteRead off n).advance
  | red (d : Word) : Writes s .red { s with digest := d }.advance
  | halt : Writes s .halt (s.finish.jump 0)
  | call (a l : MicroAddr) : Writes s (.call a) ({ s with lr := l }.jump a)
  | upcOnly {i : Instr} (a : MicroAddr) : Writes s i (s.jump a)

/-- An operation that answers a next state writes what the register table lists for it and nothing else. -/
theorem writes_of_exec {i : Instr} {s t : State} (e : exec i s = .next t) : Writes s i t := by
  cases i with
  | wait =>
    cases hb : s.busy
    · obtain rfl : s = t := by simpa [exec, execWait, hb] using e
      exact .upcOnly s.upc
    · obtain rfl : s.advance = t := by simpa [exec, execWait, hb] using e
      exact .upcOnly (s.upc + 1)
  | init => cases e; exact .init ..
  | ldw =>
    rcases execLdw_cases s with ⟨-, h⟩ | ⟨-, h⟩
    · obtain rfl := Host.Outcome.next.inj (h.symm.trans e)
      exact .ldw _ _ s.ptr.toNat 8
    · cases h.symm.trans e
  | ldp =>
    rcases execLdp_cases s with ⟨-, h⟩ | ⟨-, h⟩
    · obtain rfl := Host.Outcome.next.inj (h.symm.trans e)
      exact .ldp _ s.ptr.toNat (leftOf s.inlen)
    · cases h.symm.trans e
  | xorm rd => cases e; exact .word (.inr (.inr (.inr (.inl rfl)))) _
  | xori rd imm => cases e; exact .word (.inr (.inr (.inr (.inr ⟨imm, rfl⟩)))) _
  | add rd rs => cases e; exact .word (.inl ⟨rs, rfl⟩) _
  | rotl rd n => cases e; exact .word (.inr (.inl ⟨n, rfl⟩)) _
  | xor rd rs => cases e; exact .word (.inr (.inr (.inl ⟨rs, rfl⟩))) _
  | red => cases e; exact .red _
  | halt => cases e; exact .halt
  | bfw a =>
    cases hf : fullWordRemains s
    · obtain rfl : s.advance = t := by simpa [exec, execBfw, hf] using e
      exact .upcOnly (s.upc + 1)
    · obtain rfl : s.jump a = t := by simpa [exec, execBfw, hf] using e
      exact .upcOnly a
  | jmp a => cases e; exact .upcOnly a
  | call a => cases e; exact .call a _
  | ret => cases e; exact .upcOnly s.lr

/-- The state words depend on the four fields only. -/
theorem State.readV_congr {s t : State} (h0 : t.v0 = s.v0) (h1 : t.v1 = s.v1) (h2 : t.v2 = s.v2) (h3 : t.v3 = s.v3)
    (r : VReg) : t.readV r = s.readV r := by
  cases r with
  | v0 => exact h0
  | v1 => exact h1
  | v2 => exact h2
  | v3 => exact h3

section
variable {i : Instr} {s t : State} (w : Writes s i t)
include w

theorem Writes.readV {r : VReg} (h : t.readV r ≠ s.readV r) : i = .init ∨ WritesWord i r := by
  cases w with
  | @word _ q hq x =>
    by_cases hr : r = q
    · exact .inr (hr ▸ hq)
    · rw [State.readV_advance, State.readV_writeV_other s q r x hr] at h
      exact absurd rfl h
  | init => exact .inl rfl
  | ldw | ldp | red | halt | call | upcOnly => exact absurd (State.readV_congr rfl rfl rfl rfl r) h

theorem Writes.m (h : t.m ≠ s.m) : i = .ldw ∨ i = .ldp := by cases w <;> simp at h ⊢

theorem Writes.ptr (h : t.ptr ≠ s.ptr) : i = .init ∨ i = .ldw := by cases w <;> simp at h ⊢

theorem Writes.lr (h : t.lr ≠ s.lr) : ∃ a, i = .call a := by cases w <;> simp at h ⊢

theorem Writes.digest (h : t.digest ≠ s.digest) : i = .red := by cases w <;> simp at h ⊢

theorem Writes.msgReads (h : t.msgReads ≠ s.msgReads) : i = .ldw ∨ i = .ldp := by cases w <;> simp at h ⊢

/-- Only HALT writes the flags, and it ends the hash. -/
theorem Writes.flags : (t.busy = s.busy ∧ t.done = s.done) ∨ (i = .halt ∧ t.busy = false ∧ t.done = true) := by
  cases w with
  | halt => exact .inr ⟨rfl, rfl, rfl⟩
  | word | init | ldw | ldp | red | call | upcOnly => left; simp

/-- No operation writes the key or the length. -/
theorem Writes.keyAndLength : t.k0 = s.k0 ∧ t.k1 = s.k1 ∧ t.inlen = s.inlen := by cases w <;> simp

/-- No operation writes the micro-ROM, the message, the schedule, the host's transcript or the draws. -/
theorem Writes.outside : t.rom = s.rom ∧ t.msg = s.msg ∧ t.buflen = s.buflen ∧ t.schedule = s.schedule ∧
    t.hostSeen = s.hostSeen ∧ t.draws = s.draws := by cases w <;> simp

end

/-! ### Host accesses by offset (R38 to R40) -/

/-- A legal access is 8 bytes wide and at one of the six offsets. -/
theorem hostTarget_none {off size : Nat} (h : size ≠ 8 ∨ off ∉ [0x00, 0x08, 0x10, 0x18, 0x20, 0x28]) :
    hostTarget off size = none := by
  rcases h with h | h
  · exact if_neg h
  · have hoff : hostRegAt off = none := by
      unfold hostRegAt
      split
      case h_7 => rfl
      all_goals simp at h
    unfold hostTarget
    split
    · exact hoff
    · rfl

theorem hostStep_write_target {off size : Nat} {r : HostReg} (h : hostTarget off size = some r) (val : Word)
    (s : State) : hostStep (.write off size val) s = .next (hostWriteReg s r val) := by
  simp [hostStep, hostWrite, h]

theorem hostStep_write_refused {off size : Nat} (h : hostTarget off size = none) (val : Word) (s : State) :
    hostStep (.write off size val) s = .refused .hostAccess := by
  simp [hostStep, hostWrite, h]

theorem hostStep_read_target {off size : Nat} {r : HostReg} (h : hostTarget off size = some r) (s : State) :
    hostStep (.read off size) s = .next { s with hostSeen := s.hostSeen ++ [hostReadValue s r] } := by
  simp [hostStep, hostRead, h]

theorem hostStep_read_refused {off size : Nat} (h : hostTarget off size = none) (s : State) :
    hostStep (.read off size) s = .refused .hostAccess := by
  simp [hostStep, hostRead, h]

/-- STATUS as a number: BUSY in bit 0, DONE in bit 1 (R34). -/
theorem statusWord_eq (s : State) :
    statusWord s = BitVec.ofNat 64 ((if s.done then 2 else 0) + (if s.busy then 1 else 0)) := by
  cases hd : s.done <;> cases hb : s.busy <;> simp [statusWord, hd, hb]

theorem hostWriteReg_ctrl (s : State) (val : Word) : hostWriteReg s .ctrl val =
    if val.getLsbD 0 = true ∧ s.busy = false then { s with busy := true, done := false } else s := by
  cases hb : s.busy <;> simp [hostWriteReg, State.start, hb]

/-- With BUSY = 1 a register write does nothing (R41, R209). -/
theorem hostWriteReg_busy {s : State} (hb : s.busy = true) (r : HostReg) (val : Word) : hostWriteReg s r val = s := by
  rcases hostWriteReg_cases s r val with h | ⟨hi, -⟩
  · exact h
  · simp [hb] at hi

/-! ### What a host step leaves alone (R20, R21, R39 to R41) -/

/-- A host step other than the reset input writes the two flags, the key and the length, the message and the host's
transcript only. -/
theorem hostStep_frame {h : HostStep} {s t : State} (e : hostStep h s = .next t) (hr : h ≠ .reset) :
    t = { s with k0 := t.k0, k1 := t.k1, inlen := t.inlen, busy := t.busy, done := t.done, msg := t.msg,
                 buflen := t.buflen, hostSeen := t.hostSeen } := by
  rcases hostStep_next e with ⟨v, rfl⟩ | ⟨off, val, r, -, -, rfl⟩ | ⟨bytes, -, -, -, rfl⟩ | ⟨h, -⟩
  · rfl
  · rcases hostWriteReg_cases s r val with h | ⟨-, ⟨-, -, h⟩ | ⟨-, h⟩ | ⟨-, h⟩ | ⟨-, h⟩⟩ <;> rw [h]
  · rfl
  · exact absurd h hr

/-- Only placing a message writes the message, whatever else the host does. -/
theorem hostStep_message {h : HostStep} {s t : State} (e : hostStep h s = .next t) (hp : ∀ bytes, h ≠ .place bytes) :
    t.msg = s.msg ∧ t.buflen = s.buflen := by
  rcases hostStep_next e with ⟨v, rfl⟩ | ⟨off, val, r, -, -, rfl⟩ | ⟨bytes, h, -⟩ | ⟨-, rfl⟩
  · exact ⟨rfl, rfl⟩
  · rcases hostWriteReg_cases s r val with h | ⟨-, ⟨-, -, h⟩ | ⟨-, h⟩ | ⟨-, h⟩ | ⟨-, h⟩⟩ <;> simp [h]
  · exact absurd h (hp bytes)
  · exact ⟨rfl, rfl⟩

/-- While a hash runs a host step other than the reset input only notes what a read returned. -/
theorem hostStep_busy_frame {h : HostStep} {s t : State} (hb : s.busy = true) (hr : h ≠ .reset)
    (e : hostStep h s = .next t) : t = { s with hostSeen := t.hostSeen } := by
  rcases hostStep_next e with ⟨v, rfl⟩ | ⟨off, val, r, -, -, rfl⟩ | ⟨bytes, -, hi, -⟩ | ⟨h, -⟩
  · rfl
  · rw [hostWriteReg_busy hb]
  · simp [hb] at hi
  · exact absurd h hr

/-- A host step leaves the flags as they were, starts a hash or clears both. -/
theorem hostStep_flags {h : HostStep} {s t : State} (e : hostStep h s = .next t) :
    (t.busy = s.busy ∧ t.done = s.done) ∨ t.done = false := by
  rcases hostStep_next e with ⟨v, rfl⟩ | ⟨off, val, r, -, -, rfl⟩ | ⟨bytes, -, -, -, rfl⟩ | ⟨-, rfl⟩
  · exact .inl ⟨rfl, rfl⟩
  · rcases hostWriteReg_cases s r val with h | ⟨-, ⟨-, -, h⟩ | ⟨-, h⟩ | ⟨-, h⟩ | ⟨-, h⟩⟩ <;> simp [h]
  · exact .inl ⟨rfl, rfl⟩
  · exact .inr rfl

/-! ### Taking a turn off the schedule -/

@[simp] theorem nextTurn_busy (s : State) : (nextTurn s).2.busy = s.busy := by rw [nextTurn_frame]
@[simp] theorem nextTurn_done (s : State) : (nextTurn s).2.done = s.done := by rw [nextTurn_frame]
@[simp] theorem nextTurn_k0 (s : State) : (nextTurn s).2.k0 = s.k0 := by rw [nextTurn_frame]
@[simp] theorem nextTurn_k1 (s : State) : (nextTurn s).2.k1 = s.k1 := by rw [nextTurn_frame]
@[simp] theorem nextTurn_inlen (s : State) : (nextTurn s).2.inlen = s.inlen := by rw [nextTurn_frame]

theorem engineStep_writes {s t : State} (e : engineStep s = .next t) : ∃ i, Writes s i t := by
  obtain ⟨i, -, he⟩ := engineStep_next e
  exact ⟨i, writes_of_exec he⟩

/-- Every step of either agent leaves the flags as they were, or leaves one of them 0. -/
theorem step_flags {s t : State} (e : step s = .next t) :
    (t.busy = s.busy ∧ t.done = s.done) ∨ t.busy = false ∨ t.done = false := by
  rcases step_next e with ⟨-, he⟩ | ⟨h, -, he⟩
  · obtain ⟨i, w⟩ := engineStep_writes he
    rcases w.flags with hkeep | ⟨-, hb, -⟩
    · exact .inl (by simpa using hkeep)
    · exact .inr (.inl hb)
  · rcases hostStep_flags he with hkeep | hd
    · exact .inl (by simpa using hkeep)
    · exact .inr (.inr hd)

/-- While a hash runs only the reset input changes the key or the length. -/
theorem step_keeps_keyAndLength {s t : State} (hb : s.busy = true) (hr : Safety.notReset s = true)
    (e : step s = .next t) : t.k0 = s.k0 ∧ t.k1 = s.k1 ∧ t.inlen = s.inlen := by
  rcases step_next e with ⟨-, he⟩ | ⟨h, hturn, he⟩
  · obtain ⟨i, w⟩ := engineStep_writes he
    simpa using w.keyAndLength
  · have hh : h ≠ .reset := by
      rintro rfl
      simp [Safety.notReset, hturn] at hr
    rw [hostStep_busy_frame (by simpa using hb) hh he]
    simp

end Sys2Proof.Machine

namespace Sys2Proof.Certificates

open Sys2Proof Sys2Proof.Machine Sys2Proof.Safety

/-- Settles O32, by the registers each operation may write. -/
theorem operationsWriteOnlyTheirRegisters : Obligations.OperationsWriteOnlyTheirRegisters := by
  intro s t i e
  have w := writes_of_exec e
  obtain ⟨hk0, hk1, hlen⟩ := w.keyAndLength
  obtain ⟨hrom, hmsg, hbuf, hsched, hseen, hdraws⟩ := w.outside
  have hflags : t.busy ≠ s.busy ∨ t.done ≠ s.done → i = .halt := fun h =>
    w.flags.elim (fun ⟨hb, hd⟩ => (h.elim (absurd hb) (absurd hd))) And.left
  exact ⟨fun _ => w.readV, w.m, w.ptr, w.lr, w.digest, fun h => hflags (.inl h), fun h => hflags (.inr h), w.msgReads,
    fun _ => by rw [hmsg], hk0, hk1, hlen, hrom, hmsg, hbuf, hsched, hseen, hdraws⟩

/-- Settles O33, by the frame of a host step. -/
theorem hostStepsLeaveTheDatapathAlone : Obligations.HostStepsLeaveTheDatapathAlone := by
  intro s t h e hr
  have hf := hostStep_frame e hr
  refine ⟨by rw [hf], by rw [hf], by rw [hf], by rw [hf], by rw [hf], by rw [hf], by rw [hf], by rw [hf], by rw [hf],
    by rw [hf], by rw [hf], by rw [hf], by rw [hf], fun hp => ?_⟩
  obtain ⟨hmsg, hbuf⟩ := hostStep_message e hp
  exact ⟨hmsg, hbuf, fun _ => by rw [hmsg]⟩

/-- Settles O37: each offset names its register, and the register's write is locked by BUSY. -/
theorem hostWriteByOffset : Obligations.HostWriteByOffset := by
  intro s val
  have hlock (t : State) : (if s.busy then s else t) = if s.busy = false then t else s := by cases s.busy <;> rfl
  refine ⟨?_, ?_, ?_, ?_, ?_, ?_, fun off size h => hostStep_write_refused (hostTarget_none h) val s⟩
  · rw [hostStep_write_target (r := .ctrl) rfl, hostWriteReg_ctrl]
  · rw [hostStep_write_target (r := .k0) rfl, hostWriteReg, hlock]
  · rw [hostStep_write_target (r := .k1) rfl, hostWriteReg, hlock]
  · rw [hostStep_write_target (r := .inlen) rfl, hostWriteReg, hlock]
  · exact hostStep_write_target (r := .status) rfl val s
  · exact hostStep_write_target (r := .digest) rfl val s

/-- Settles O38: each offset names its register, and the value of STATUS is the number its two bits spell. -/
theorem hostReadByOffset : Obligations.HostReadByOffset := by
  intro s
  refine ⟨hostStep_read_target (r := .ctrl) rfl s, ?_, hostStep_read_target (r := .k0) rfl s,
    hostStep_read_target (r := .k1) rfl s, hostStep_read_target (r := .inlen) rfl s,
    hostStep_read_target (r := .digest) rfl s, fun off size h => hostStep_read_refused (hostTarget_none h) s⟩
  rw [hostStep_read_target (r := .status) rfl, hostReadValue, statusWord_eq]

/-- Settles O40, by the lock on the host's writes and the frames of both agents' steps. -/
theorem keyAndLengthAreLockedWhileBusy : Obligations.KeyAndLengthAreLockedWhileBusy := by
  refine ⟨fun s off val hb hoff => ?_, fun s t => step_keeps_keyAndLength⟩
  have htarget : ∃ r, hostTarget off 8 = some r := by
    simp only [List.mem_cons, List.not_mem_nil, or_false] at hoff
    rcases hoff with rfl | rfl | rfl
    · exact ⟨.k0, rfl⟩
    · exact ⟨.k1, rfl⟩
    · exact ⟨.inlen, rfl⟩
  obtain ⟨r, hr⟩ := htarget
  rw [hostStep_write_target hr, hostWriteReg_busy hb]

/-- Settles O41, by the frame of a host step while a hash runs. -/
theorem hostAccessesDoNotDisturbARunningHash : Obligations.HostAccessesDoNotDisturbARunningHash :=
  fun _ _ _ hb hr e => hostStep_busy_frame hb hr e

/-- Settles O43: with BUSY = 1 the invariant makes DONE = 0, which hides digest. -/
theorem noIntermediateDigestIsRead : Obligations.NoIntermediateDigestIsRead := by
  intro s hinv hb
  have hd : s.done = false := by
    have hboth := hinv.sequenced.notBoth
    simpa [hb] using hboth
  rw [hostStep_read_target (r := .digest) rfl]
  simp [hostReadValue, hd]

/-- Settles O50: a step keeps both flags, or leaves one of them 0. -/
theorem busyAndDoneNeverMeet : Obligations.BusyAndDoneNeverMeet := by
  rintro s t hs e ⟨hb, hd⟩
  rcases step_flags e with ⟨hkb, hkd⟩ | hb' | hd'
  · exact hs ⟨hkb ▸ hb, hkd ▸ hd⟩
  · simp [hb] at hb'
  · simp [hd] at hd'

/-- Settles O46: the word at address 0 is WAIT, which holds while BUSY = 0. -/
theorem resetStateIsIdle : Obligations.ResetStateIsIdle := by
  have hwait : decode (fetch State.reset) = .instr .wait := by decide
  have hstep : step State.reset = .next State.reset := (step_engine rfl).trans (engineStep_of_decode hwait)
  exact ⟨rfl, rfl, rfl, rfl, rfl, rfl, rfl, rfl, hwait, hstep⟩

end Sys2Proof.Certificates
end

section
/-! SUPPORT. The micro-program block by block, from the WAIT of a started hash to its HALT, for
LeftoverRegistersDoNotMatter (R22, R42): every block is said from any state words at its first address. -/

namespace Sys2Proof.Machine

/-! ### The padding word as the source-level function makes it (R180, R181) -/

theorem packLE_concat (bs : List Byte) (p : Nat) (x : Byte) :
    packLE p (bs ++ [x]) = packLE p bs ||| (zext64 x <<< (8 * (p + bs.length))) := by
  induction bs generalizing p with
  | nil => simp [packLE]
  | cons b bs ih =>
    have hpos : p + 1 + bs.length = p + (b :: bs).length := by simp only [List.length_cons]; omega
    rw [List.cons_append, packLE, packLE, ih, hpos, BitVec.or_assoc]

/-- PadWord's loop ORs in what LDP packs. -/
theorem foldl_or_eq_packLE (f : Nat → Byte) (w : Word) (n : Nat) :
    (List.range n).foldl (fun b i => b ||| (zext64 (f i) <<< (8 * i))) w = w ||| packLE 0 ((List.range n).map f) := by
  induction n with
  | zero => simp [packLE]
  | succ n ih => simp [List.range_succ, ih, packLE_concat, BitVec.or_assoc]

theorem lengthByte_eq (x : Word) : lengthByte x = BitVec.ofNat 64 (x.toNat % 256) <<< 56 := by
  have hbyte : zext64 (x.extractLsb' 0 8) = BitVec.ofNat 64 (x.toNat % 256) := by
    apply BitVec.eq_of_toNat_eq
    simp [zext64]
  rw [lengthByte, hbyte]

/-- With ptr after the full words LDP's word is PadWord of the message. -/
theorem paddingWord_eq_padWord (mem : Memory) (x : Word) :
    paddingWord x (Memory.bytes mem (8 * (x.toNat / 8)) (leftOf x)) =
      Reference.padWord (Memory.read mem) x.toNat := by
  have hoff : x.toNat - x.toNat % 8 = 8 * (x.toNat / 8) := by omega
  rw [Reference.padWord, foldl_or_eq_packLE (fun i => Memory.read mem (x.toNat - x.toNat % 8 + i)), hoff, paddingWord,
    lengthByte_eq, Memory.bytes, leftOf_eq]

namespace Reference

/-! ### State words by number, and the operations on them alone -/

def V.get (v : V) : VReg → Word
  | .v0 => v.v0
  | .v1 => v.v1
  | .v2 => v.v2
  | .v3 => v.v3

def V.set (v : V) : VReg → Word → V
  | .v0, x => { v with v0 := x }
  | .v1, x => { v with v1 := x }
  | .v2, x => { v with v2 := x }
  | .v3, x => { v with v3 := x }

/-- What ADD, ROTL, XOR and XORI do to the state words; none for an operation that does anything else. -/
def wordOp (v : V) : Instr → Option V
  | .add rd rs => some (v.set rd (v.get rd + v.get rs))
  | .rotl rd n => some (v.set rd (rotl64 (v.get rd) n))
  | .xor rd rs => some (v.set rd (v.get rd ^^^ v.get rs))
  | .xori rd imm => some (v.set rd (v.get rd ^^^ zext64 imm))
  | _ => none

/-- The fourteen operations of RND before its RET (R135). -/
def roundOps : List Instr :=
  [.add .v0 .v1, .rotl .v1 13, .xor .v1 .v0, .rotl .v0 32, .add .v2 .v3, .rotl .v3 16, .xor .v3 .v2,
    .add .v0 .v3, .rotl .v3 21, .xor .v3 .v0, .add .v2 .v1, .rotl .v1 17, .xor .v1 .v2, .rotl .v2 32]

/-- They are SipRound's fourteen assignments. -/
theorem foldlM_roundOps (v : V) : roundOps.foldlM wordOp v = some (sipRound v) := rfl

end Reference

end Sys2Proof.Machine

namespace Sys2Proof.Safety

open Sys2Proof.Machine Sys2Proof.Machine.Reference

/-- The state s with state words v, about to perform the word at micro-ROM address a. -/
def atWords (s : State) (v : V) (a : MicroAddr) : State := { withWords s v with upc := a }

/-- The micro-ROM holds these instructions from address a up. -/
def listedAt : MicroAddr → List Instr → Bool
  | _, [] => true
  | a, i :: is => decide (decode (romAt microRom a) = .instr i) && listedAt (a + 1) is

theorem eq_atWords (s : State) : s = atWords s (words s) s.upc := rfl

/-! ### One operation from a state given by its words and its address -/

theorem exec_wordOp {i : Instr} {v v' : V} (h : wordOp v i = some v') (s : State) (a : MicroAddr) :
    exec i (atWords s v a) = .next (atWords s v' (a + 1)) := by
  have hread (r : VReg) : (atWords s v a).readV r = v.get r := by cases r <;> rfl
  have hwrite (r : VReg) (x : Word) : ((atWords s v a).writeV r x).advance = atWords s (v.set r x) (a + 1) := by
    cases r <;> rfl
  cases i with
  | add rd rs => cases h; rw [exec, execAdd, hread, hread, hwrite]; rfl
  | rotl rd n => cases h; rw [exec, execRotl, hread, hwrite]
  | xor rd rs => cases h; rw [exec, execXor, hread, hread, hwrite]
  | xori rd imm => cases h; rw [exec, execXori, hread, hwrite]; rfl
  | wait | init | ldw | ldp | xorm | red | halt | bfw | jmp | call | ret => cases h

theorem exec_bfw_taken {s : State} (h : s.ptr.toNat + 8 ≤ s.inlen.toNat) (v : V) (a t : MicroAddr) :
    exec (.bfw t) (atWords s v a) = .next (atWords s v t) := by
  have hfull : fullWordRemains (atWords s v a) = true := by
    show decide (8 ≤ (s.inlen - s.ptr).toNat) = true
    have : s.inlen.toNat < 2 ^ 64 := s.inlen.isLt
    rw [BitVec.toNat_sub]
    exact decide_eq_true (by omega)
  rw [exec, execBfw, if_pos hfull]
  rfl

theorem exec_bfw_done {s : State} (h : s.ptr.toNat = 8 * (s.inlen.toNat / 8)) (v : V) (a t : MicroAddr) :
    exec (.bfw t) (atWords s v a) = .next (atWords s v (a + 1)) := by
  have hfull : fullWordRemains (atWords s v a) = false := by
    show decide (8 ≤ (s.inlen - s.ptr).toNat) = false
    have : s.inlen.toNat < 2 ^ 64 := s.inlen.isLt
    rw [BitVec.toNat_sub]
    exact decide_eq_false (by omega)
  rw [exec, execBfw, hfull]
  rfl

theorem exec_ldw_at {s : State} (h : s.ptr.toNat + 8 ≤ s.buflen) (v : V) (a : MicroAddr) :
    exec .ldw (atWords s v a) = .next (atWords { s with
      m := wordAt (Memory.read s.msg) s.ptr.toNat, ptr := s.ptr + 8
      msgReads := s.msgReads ++ [{ off := s.ptr.toNat, count := 8 }] } v (a + 1)) := by
  rcases execLdw_cases (atWords s v a) with ⟨-, e⟩ | ⟨hout, -⟩
  · exact e
  · exact absurd hout (Nat.not_lt.mpr h)

theorem exec_ldp_at {s : State} (hp : s.ptr.toNat = 8 * (s.inlen.toNat / 8)) (hb : s.inlen.toNat ≤ s.buflen) (v : V)
    (a : MicroAddr) :
    exec .ldp (atWords s v a) = .next (atWords { s with
      m := padWord (Memory.read s.msg) s.inlen.toNat
      msgReads := s.msgReads ++ accessOf s.ptr.toNat (s.inlen.toNat % 8) } v (a + 1)) := by
  rw [← paddingWord_eq_padWord, ← hp, ← leftOf_eq]
  rcases execLdp_cases (atWords s v a) with ⟨-, e⟩ | ⟨hout, -⟩
  · exact e
  · have hin : s.ptr.toNat + leftOf s.inlen ≤ s.buflen := by
      rw [leftOf_eq]
      omega
    exact absurd hout (Nat.not_lt.mpr hin)

/-- What a hash started in s leaves, as R210 and R211 say it: of s only the key, the length, the message and what is
outside the datapath enter. -/
def hashEnd (s : State) : State :=
  atWords { s with
    m := padWord (Memory.read s.msg) s.inlen.toNat, ptr := BitVec.ofNat 64 (8 * (s.inlen.toNat / 8)), lr := 0x0D
    busy := false, done := true, digest := hash (Memory.read s.msg) s.inlen.toNat s.k0 s.k1
    msgReads := s.msgReads ++ readsOf s.inlen.toNat }
    (finalRounds (absorbed (Memory.read s.msg) s.inlen.toNat s.k0 s.k1)) 0x00

/-- The state after n passes of the absorption loop from ptr = 0; m and lr are scratch that later blocks overwrite. -/
def afterPasses (s : State) (n : Nat) (m : Word) (lr : MicroAddr) : State :=
  { s with
    m := m, ptr := BitVec.ofNat 64 (8 * n), lr := lr
    msgReads := s.msgReads ++ (List.range n).map fun j => { off := 8 * j, count := 8 } }

theorem afterPasses_ptr {s : State} {n : Nat} (m : Word) (lr : MicroAddr) (h : 8 * n ≤ s.inlen.toNat) :
    (afterPasses s n m lr).ptr.toNat = 8 * n := by
  have hlen : s.inlen.toNat < 2 ^ 64 := s.inlen.isLt
  exact (BitVec.toNat_ofNat ..).trans (Nat.mod_eq_of_lt (by omega))

/-! ### The blocks of the micro-program

A hypothesis given as `by exact` waits until the state it speaks of is known from the run. -/

section
variable {s : State} (hr : s.rom = microRom) (hs : s.schedule = [])
include hr hs

/-- Operations on the state words that stand one after the other run one after the other. -/
theorem run_wordOps {ops : List Instr} {v v' : V} {a : MicroAddr} (hl : listedAt a ops = true)
    (h : ops.foldlM wordOp v = some v') :
    run ops.length (atWords s v a) = .next (atWords s v' (a + BitVec.ofNat 6 ops.length)) := by
  induction ops generalizing v a with
  | nil =>
    obtain rfl : v = v' := by simpa using h
    simp [run_zero]
  | cons i ops ih =>
    obtain ⟨hd, hl⟩ : decode (romAt microRom a) = .instr i ∧ listedAt (a + 1) ops = true := by
      simpa [listedAt] using hl
    obtain ⟨v₁, h₁, h⟩ : ∃ v₁, wordOp v i = some v₁ ∧ ops.foldlM wordOp v₁ = some v' := by
      simpa [List.foldlM_cons, Option.bind_eq_some_iff] using h
    have haddr : a + BitVec.ofNat 6 (i :: ops).length = a + 1 + BitVec.ofNat 6 ops.length := by
      rw [List.length_cons, BitVec.ofNat_add, BitVec.add_comm (BitVec.ofNat 6 _), BitVec.add_assoc]
      rfl
    rw [haddr]
    exact run_next a i hr hs rfl hd (exec_wordOp h₁ s a) (ih hl h)

/-- RND is one SipRound and returns to lr (R135, R136). -/
theorem run_rnd (v : V) : run 15 (atWords s v 0x15) = .next (atWords s (sipRound v) s.lr) :=
  run_part (run_wordOps hr hs (by decide) (foldlM_roundOps v))
    (run_next 0x23 .ret hr hs rfl (by decide) rfl (run_zero _))

/-- CALL RND is one SipRound and goes on after the CALL (R136). -/
theorem run_callRnd {a : MicroAddr} (hd : decode (romAt microRom a) = .instr (.call 0x15)) (v : V) :
    run 16 (atWords s v a) = .next (atWords { s with lr := a + 1 } (sipRound v) (a + 1)) :=
  run_next a (.call 0x15) hr hs rfl hd rfl (run_rnd (s := { s with lr := a + 1 }) hr hs v)

/-- XORM v3, two rounds, XORM v0 are one Compress of m (R162). -/
theorem run_compress {a : MicroAddr} (hl : listedAt a [.xorm .v3, .call 0x15, .call 0x15, .xorm .v0] = true) (v : V) :
    run 34 (atWords s v a) =
      .next (atWords { s with lr := a + 1 + 1 + 1 } (compress v s.m) (a + 1 + 1 + 1 + 1)) := by
  obtain ⟨h₃, hc₁, hc₂, h₀⟩ : decode (romAt microRom a) = .instr (.xorm .v3) ∧
      decode (romAt microRom (a + 1)) = .instr (.call 0x15) ∧
      decode (romAt microRom (a + 1 + 1)) = .instr (.call 0x15) ∧
      decode (romAt microRom (a + 1 + 1 + 1)) = .instr (.xorm .v0) := by
    simpa only [listedAt, Bool.and_eq_true, decide_eq_true_eq, and_true] using hl
  refine run_next a (.xorm .v3) hr hs rfl h₃ (t := atWords s { v with v3 := v.v3 ^^^ s.m } (a + 1)) rfl ?_
  refine run_part (m := 16) (n := 17) (run_callRnd hr hs hc₁ _) ?_
  refine run_part (m := 16) (n := 1) (run_callRnd (s := { s with lr := a + 1 + 1 }) hr hs hc₂ _) ?_
  exact run_next (a + 1 + 1 + 1) (.xorm .v0) hr hs rfl h₀ rfl (run_zero _)

/-- One pass of the absorption loop is one Compress of the word at ptr (R164). -/
theorem run_pass (hp : s.ptr.toNat + 8 ≤ s.inlen.toNat) (hb : s.inlen.toNat ≤ s.buflen) (v : V) :
    run 37 (atWords s v 0x02) = .next (atWords { s with
      m := wordAt (Memory.read s.msg) s.ptr.toNat, ptr := s.ptr + 8, lr := 0x13
      msgReads := s.msgReads ++ [{ off := s.ptr.toNat, count := 8 }] }
      (compress v (wordAt (Memory.read s.msg) s.ptr.toNat)) 0x02) := by
  refine run_next 0x02 (.bfw 0x0F) hr hs rfl (by decide) (exec_bfw_taken hp v _ _) ?_
  refine run_next 0x0F .ldw hr hs rfl (by decide) (exec_ldw_at (hp.trans hb) v _) ?_
  refine run_part (m := 34) (n := 1) (run_compress (a := 0x10) (by exact hr) (by exact hs) (by decide) v) ?_
  exact run_next 0x14 (.jmp 0x02) hr hs rfl (by decide) rfl (run_zero _)

/-- n passes from ptr = 0 are the first n words of Absorb (R163, R164). -/
theorem run_passes (hp : s.ptr = 0) (hb : s.inlen.toNat ≤ s.buflen) (v : V) {n : Nat} (hn : 8 * n ≤ s.inlen.toNat) :
    ∃ m lr, run (37 * n) (atWords s v 0x02) =
      .next (atWords (afterPasses s n m lr) (absorb (Memory.read s.msg) n v) 0x02) := by
  induction n with
  | zero =>
    have hnone : afterPasses s 0 s.m s.lr = s := by
      have hptr : BitVec.ofNat 64 (8 * 0) = s.ptr := hp.symm
      simp only [afterPasses, hptr, List.range_zero, List.map_nil, List.append_nil]
    exact ⟨s.m, s.lr, by rw [hnone]; rfl⟩
  | succ n ih =>
    obtain ⟨m, lr, ih⟩ := ih (by omega)
    have hptr := afterPasses_ptr (s := s) m lr (show 8 * n ≤ s.inlen.toNat by omega)
    have hnext : (afterPasses s n m lr).ptr.toNat + 8 ≤ s.inlen.toNat := by omega
    have hpass := run_pass (s := afterPasses s n m lr) hr hs hnext hb (absorb (Memory.read s.msg) n v)
    refine ⟨wordAt (Memory.read s.msg) (8 * n), 0x13, (run_part ih hpass).trans ?_⟩
    rw [hptr]
    simp only [afterPasses, List.range_succ, List.map_append, List.append_assoc, Nat.mul_succ, BitVec.ofNat_add]
    rfl

/-- The final block is one Compress of the padding word (R184). -/
theorem run_finalBlock (hp : s.ptr.toNat = 8 * (s.inlen.toNat / 8)) (hb : s.inlen.toNat ≤ s.buflen) (v : V) :
    run 35 (atWords s v 0x03) = .next (atWords { s with
      m := padWord (Memory.read s.msg) s.inlen.toNat, lr := 0x07
      msgReads := s.msgReads ++ accessOf s.ptr.toNat (s.inlen.toNat % 8) }
      (compress v (padWord (Memory.read s.msg) s.inlen.toNat)) 0x08) := by
  refine run_next 0x03 .ldp hr hs rfl (by decide) (exec_ldp_at hp hb v _) ?_
  exact run_compress (a := 0x04) (by exact hr) (by exact hs) (by decide) v

/-- Finalization leaves Finalize of the state words in digest (R194). -/
theorem run_finalization (v : V) :
    run 66 (atWords s v 0x08) =
      .next (atWords { s with digest := finalize v, lr := 0x0D } (finalRounds v) 0x0E) := by
  refine run_next 0x08 (.xori .v2 0xFF) hr hs rfl (by decide) (exec_wordOp rfl s _) ?_
  refine run_part (m := 16) (n := 49) (run_callRnd (a := 0x09) hr hs (by decide) _) ?_
  refine run_part (m := 16) (n := 33) (run_callRnd (s := { s with lr := 0x0A }) (a := 0x0A) hr hs (by decide) _) ?_
  refine run_part (m := 16) (n := 17) (run_callRnd (s := { s with lr := 0x0B }) (a := 0x0B) hr hs (by decide) _) ?_
  refine run_part (m := 16) (n := 1) (run_callRnd (s := { s with lr := 0x0C }) (a := 0x0C) hr hs (by decide) _) ?_
  exact run_next 0x0D .red hr hs rfl (by decide) rfl (run_zero _)

/-- WAIT and INIT of a started hash: the key alone makes the state words, and ptr is 0 (R120, R201). -/
theorem run_waitInit (hbusy : s.busy = true) (v : V) :
    run 2 (atWords s v 0x00) = .next (atWords { s with ptr := 0 } (init s.k0 s.k1) 0x02) := by
  have hwait : exec .wait (atWords s v 0x00) = .next (atWords s v 0x01) := by
    rw [exec, execWait]
    exact congrArg _ (if_pos hbusy)
  exact run_next 0x00 .wait hr hs rfl (by decide) hwait
    (run_next 0x01 .init hr hs rfl (by decide) rfl (run_zero _))

/-- From BFW with no full word left: the final block, finalization and HALT (R184, R194, R202). -/
theorem run_toHalt (hp : s.ptr.toNat = 8 * (s.inlen.toNat / 8)) (hb : s.inlen.toNat ≤ s.buflen) (v : V) :
    run 103 (atWords s v 0x02) = .next (atWords { s with
      m := padWord (Memory.read s.msg) s.inlen.toNat, lr := 0x0D, busy := false, done := true
      digest := finalize (compress v (padWord (Memory.read s.msg) s.inlen.toNat))
      msgReads := s.msgReads ++ accessOf s.ptr.toNat (s.inlen.toNat % 8) }
      (finalRounds (compress v (padWord (Memory.read s.msg) s.inlen.toNat))) 0x00) := by
  refine run_next 0x02 (.bfw 0x0F) hr hs rfl (by decide) (exec_bfw_done hp v _ _) ?_
  refine run_part (m := 35) (n := 67) (run_finalBlock hr hs hp hb v) ?_
  refine run_part (m := 66) (n := 1) (run_finalization (by exact hr) (by exact hs) _) ?_
  exact run_next 0x0E .halt hr hs rfl (by decide) rfl (run_zero _)

/-- A started hash runs to HALT (R210, R211, R213). -/
theorem run_hash (hbusy : s.busy = true) (hu : s.upc = 0) (hb : s.inlen.toNat ≤ s.buflen) :
    run (105 + 37 * (s.inlen.toNat / 8)) s = .next (hashEnd s) := by
  have hstart : s = atWords s (words s) 0x00 := hu ▸ eq_atWords s
  have hwords : 8 * (s.inlen.toNat / 8) ≤ s.inlen.toNat := by omega
  obtain ⟨m, lr, hloop⟩ := run_passes (s := { s with ptr := 0 }) hr hs rfl hb (init s.k0 s.k1) hwords
  have hptr := afterPasses_ptr (s := { s with ptr := 0 }) m lr hwords
  have hhalt := run_toHalt (s := afterPasses { s with ptr := 0 } (s.inlen.toNat / 8) m lr) hr hs hptr hb
    (absorb (Memory.read s.msg) (s.inlen.toNat / 8) (init s.k0 s.k1))
  have hsteps : 105 + 37 * (s.inlen.toNat / 8) = 2 + (37 * (s.inlen.toNat / 8) + 103) := by omega
  rw [hsteps, congrArg (run _) hstart, run_part (run_waitInit hr hs hbusy (words s)) (run_part hloop hhalt), hptr]
  simp only [hashEnd, readsOf, ← List.append_assoc]
  rfl

end

end Sys2Proof.Safety

namespace Sys2Proof.Certificates

open Sys2Proof Sys2Proof.Machine Sys2Proof.Safety

/-- Settles O60: what a hash ends in names neither the state words it started with nor m, ptr and lr. -/
theorem leftoverRegistersDoNotMatter : Obligations.LeftoverRegistersDoNotMatter := by
  intro s v m' ptr' lr' hr hs hbusy hu hb
  exact ⟨hashEnd s, run_hash hr hs hbusy hu hb,
    run_hash (s := { withWords s v with m := m', ptr := ptr', lr := lr' }) hr hs hbusy hu hb⟩

end Sys2Proof.Certificates
end

section
/-! SUPPORT. The statements of the family 20_memory: what MemRead answers (R62), that the block never writes message
memory (R63), that only placing a message does and only while idle (R80), and the canonical form (R61, log 4). -/

namespace Sys2Proof.Machine

/-! ### The bytes of a read (R62) -/

theorem Memory.bytes_getElem? (mem : Memory) (off : Nat) {n i : Nat} (h : i < n) :
    (Memory.bytes mem off n)[i]? = some (Memory.read mem (off + i)) := by
  rw [Memory.bytes, List.getElem?_map, List.getElem?_range h, Option.map_some]

/-! ### What a step does to the message (R63, R80) -/

theorem engineStep_message {s t : State} (e : engineStep s = .next t) : t.msg = s.msg ∧ t.buflen = s.buflen := by
  obtain ⟨i, w⟩ := engineStep_writes e
  obtain ⟨-, hmsg, hbuf, -⟩ := w.outside
  exact ⟨hmsg, hbuf⟩

theorem hostStep_place_busy {s : State} (hb : s.busy = true) (bytes : List Byte) :
    hostStep (.place bytes) s = .refused .messageChange := if_pos hb

/-- Everything a host step can do to the message: leave it, or put another in its place while no hash runs. -/
theorem hostStep_message_cases {h : HostStep} {s t : State} (e : hostStep h s = .next t) :
    (t.msg = s.msg ∧ t.buflen = s.buflen) ∨
      (s.busy = false ∧ ∃ bytes : List Byte, bytes.length ≤ Config.offsetSpace ∧
        t.msg = Memory.writeAll [] 0 bytes ∧ t.buflen = bytes.length) := by
  rcases hostStep_next e with ⟨v, rfl⟩ | ⟨off, val, r, rfl, -⟩ | ⟨bytes, -, hidle, hlen, rfl⟩ | ⟨-, rfl⟩
  · exact .inl ⟨rfl, rfl⟩
  · exact .inl (hostStep_message e fun _ => HostStep.noConfusion)
  · exact .inr ⟨hidle, bytes, hlen, rfl, rfl⟩
  · exact .inl ⟨rfl, rfl⟩

@[simp] theorem nextTurn_msg (s : State) : (nextTurn s).2.msg = s.msg := by rw [nextTurn_frame]
@[simp] theorem nextTurn_buflen (s : State) : (nextTurn s).2.buflen = s.buflen := by rw [nextTurn_frame]

/-- Everything a step of either agent can do to the message. -/
theorem step_message_cases {s t : State} (e : step s = .next t) :
    (t.msg = s.msg ∧ t.buflen = s.buflen) ∨
      (s.busy = false ∧ ∃ bytes : List Byte, bytes.length ≤ Config.offsetSpace ∧
        t.msg = Memory.writeAll [] 0 bytes ∧ t.buflen = bytes.length) := by
  rcases step_next e with ⟨-, he⟩ | ⟨h, -, he⟩
  · exact .inl (by simpa using engineStep_message he)
  · simpa using hostStep_message_cases he

end Sys2Proof.Machine

namespace Sys2Proof.Safety

open Sys2Proof.Machine

/-! ### The canonical form (R61, log 4) -/

theorem MessageOk.congr {s t : State} (hs : MessageOk s) (hmsg : t.msg = s.msg) (hbuf : t.buflen = s.buflen) :
    MessageOk t where
  canonical := hmsg ▸ hs.canonical
  inside := hmsg ▸ hbuf ▸ hs.inside
  addressable := hbuf ▸ hs.addressable

/-- A placed message is canonical: its bytes are written one by one into empty memory, below their number. -/
theorem messageOk_of_placed {t : State} {bytes : List Byte} (hlen : bytes.length ≤ Config.offsetSpace)
    (hmsg : t.msg = Memory.writeAll [] 0 bytes) (hbuf : t.buflen = bytes.length) : MessageOk t where
  canonical := hmsg ▸ Memory.writeAll_wf bytes [] 0 rfl
  inside := hmsg ▸ hbuf ▸ Memory.writeAll_below bytes [] 0 rfl (Nat.zero_add _).le
  addressable := hbuf ▸ hlen

end Sys2Proof.Safety

namespace Sys2Proof.Certificates

open Sys2Proof Sys2Proof.Machine Sys2Proof.Safety

/-- Settles O34: an operation writes nothing outside the block's registers but the transcript of its reads. -/
theorem engineNeverWritesMemory : Obligations.EngineNeverWritesMemory := by
  intro s t e
  obtain ⟨hmsg, hbuf⟩ := engineStep_message e
  exact ⟨hmsg, hbuf, fun _ => by rw [hmsg]⟩

/-- Settles O35: a message is placed only while BUSY = 0. -/
theorem messageIsFixedWhileBusy : Obligations.MessageIsFixedWhileBusy := by
  refine ⟨fun s t hb e => ?_, fun s bytes hb => hostStep_place_busy hb bytes⟩
  rcases step_message_cases e with hkeep | ⟨hidle, -⟩
  · exact hkeep
  · simp [hb] at hidle

/-- Settles O49: a step keeps the message, or puts a placed one in its stead. -/
theorem everyStepKeepsMemoryCanonical : Obligations.EveryStepKeepsMemoryCanonical := by
  intro s t hs e
  rcases step_message_cases e with ⟨hmsg, hbuf⟩ | ⟨-, bytes, hlen, hmsg, hbuf⟩
  · exact hs.congr hmsg hbuf
  · exact messageOk_of_placed hlen hmsg hbuf

/-- Settles O18, by the two cases of MemRead. -/
theorem memReadGivesTheBytesOrNoStep : Obligations.MemReadGivesTheBytesOrNoStep := by
  refine ⟨fun s off n h => ⟨Memory.bytes s.msg off n, memRead_some h, Memory.bytes_length s.msg off n, ?_⟩,
    fun _ _ _ => memRead_none, fun _ _ => rfl⟩
  exact fun _ hi => Memory.bytes_getElem? s.msg off hi

end Sys2Proof.Certificates
end

section
/-! SUPPORT. The statements of the family 30_encoding: a control word by its fields (R91), the opcode map by operation
code and format (R92, R93), the decoder as a search through the map (R102), and what an unimplemented address of the
micro-ROM holds (R105). -/

namespace Sys2Proof

/-! ### A control word and its fields (R91) -/

theorem packWord_toNat (op : BitVec 4) (rd rs : BitVec 2) (imm : BitVec 8) :
    (packWord op rd rs imm).toNat = ((op.toNat * 4 + rd.toNat) * 4 + rs.toNat) * 256 + imm.toNat := by
  have happ : packWord op rd rs imm = (op ++ rd ++ rs ++ imm).setWidth 16 :=
    (BitVec.setWidth_append_append_append_eq_shiftLeft_setWidth_or (b := op) (b' := rd) (b'' := rs)
      (b''' := imm)).symm
  rw [happ, BitVec.setWidth_eq, BitVec.toNat_append, ← Nat.shiftLeft_add_eq_or_of_lt imm.isLt, BitVec.toNat_append,
    ← Nat.shiftLeft_add_eq_or_of_lt rs.isLt, BitVec.toNat_append, ← Nat.shiftLeft_add_eq_or_of_lt rd.isLt]
  simp only [Nat.shiftLeft_eq, Nat.reducePow]

section
variable {w m : ControlWord} {f : Format} {op : BitVec 4} {rd rs : BitVec 2} {imm : BitVec 8} {n : BitVec 6}

/-- The four fields cover the word: it is the packing of their values and of no others. -/
theorem packWord_eq_iff :
    packWord op rd rs imm = w ↔ fieldOp w = op ∧ fieldRd w = rd ∧ fieldRs w = rs ∧ fieldImm w = imm := by
  simp only [BitVec.toNat_eq, packWord_toNat, fieldOp, fieldRd, fieldRs, fieldImm, BitVec.extractLsb'_toNat,
    Nat.shiftRight_eq_div_pow]
  omega

/-- A mask acts on each field alone. -/
theorem and_eq_packWord_iff :
    w &&& m = packWord op rd rs imm ↔ fieldOp w &&& fieldOp m = op ∧ fieldRd w &&& fieldRd m = rd ∧
      fieldRs w &&& fieldRs m = rs ∧ fieldImm w &&& fieldImm m = imm := by
  rw [eq_comm, packWord_eq_iff, fieldOp, fieldRd, fieldRs, fieldImm]
  simp only [BitVec.extractLsb'_and]
  rfl

theorem fieldImm6_eq_setWidth (w : ControlWord) : fieldImm6 w = (fieldImm w).setWidth 6 := by
  apply BitVec.eq_of_toNat_eq
  simp [fieldImm6, fieldImm]

/-- Field imm holds a six-bit operand, unused bits zero, when its bits 7:6 are 0 (R94, R96). -/
theorem fieldImm_eq_setWidth_iff : fieldImm w = n.setWidth 8 ↔ fieldImm w &&& 0xC0 = 0 ∧ fieldImm6 w = n := by
  have hzero : ∀ x : BitVec 8, x &&& 0xC0 = 0 ↔ x = (x.setWidth 6).setWidth 8 := by decide
  rw [hzero, fieldImm6_eq_setWidth]
  refine ⟨fun h => by simp [h], ?_⟩
  rintro ⟨h, rfl⟩
  exact h

theorem bitsOfVReg_vregOfBits : ∀ b, bitsOfVReg (vregOfBits b) = b := by decide
theorem vregOfBits_bitsOfVReg (r : VReg) : vregOfBits (bitsOfVReg r) = r := by cases r <;> rfl

theorem vregOfBits_eq_iff {r : VReg} : vregOfBits rd = r ↔ rd = bitsOfVReg r := by
  constructor
  · rintro rfl
    exact (bitsOfVReg_vregOfBits rd).symm
  · rintro rfl
    exact vregOfBits_bitsOfVReg r

/-! ### The must-be-zero bits of a format, field by field (R92) -/

theorem and_mustBeZero_iff :
    w &&& mustBeZero f = 0 ↔ fieldRd w &&& fieldRd (mustBeZero f) = 0 ∧
      fieldRs w &&& fieldRs (mustBeZero f) = 0 ∧ fieldImm w &&& fieldImm (mustBeZero f) = 0 := by
  have hop : fieldOp (mustBeZero f) = 0 := by cases f <;> rfl
  rw [show (0 : ControlWord) = packWord 0 0 0 0 from rfl, and_eq_packWord_iff, hop]
  simp

/-! A field under a mask of ones, the mask as simp writes it. -/

theorem and_ones_two (x : BitVec 2) : x &&& 3#2 = x := BitVec.and_allOnes
theorem and_ones_eight (x : BitVec 8) : x &&& 255#8 = x := BitVec.and_allOnes

theorem and_mustBeZero_z : w &&& mustBeZero .z = 0 ↔ fieldRd w = 0 ∧ fieldRs w = 0 ∧ fieldImm w = 0 := by
  rw [and_mustBeZero_iff]
  simp [mustBeZero, fieldRd, fieldRs, fieldImm, and_ones_two, and_ones_eight]

theorem and_mustBeZero_r : w &&& mustBeZero .r = 0 ↔ fieldImm w = 0 := by
  rw [and_mustBeZero_iff]
  simp [mustBeZero, fieldRd, fieldRs, fieldImm, and_ones_eight]

theorem and_mustBeZero_s : w &&& mustBeZero .s = 0 ↔ fieldRs w = 0 ∧ fieldImm w &&& 0xC0 = 0 := by
  rw [and_mustBeZero_iff]
  simp [mustBeZero, fieldRd, fieldRs, fieldImm, and_ones_two]

theorem and_mustBeZero_m : w &&& mustBeZero .m = 0 ↔ fieldRs w = 0 ∧ fieldImm w = 0 := by
  rw [and_mustBeZero_iff]
  simp [mustBeZero, fieldRd, fieldRs, fieldImm, and_ones_two, and_ones_eight]

theorem and_mustBeZero_i : w &&& mustBeZero .i = 0 ↔ fieldRs w = 0 := by
  rw [and_mustBeZero_iff]
  simp [mustBeZero, fieldRd, fieldRs, fieldImm, and_ones_two]

theorem and_mustBeZero_b :
    w &&& mustBeZero .b = 0 ↔ fieldRd w = 0 ∧ fieldRs w = 0 ∧ fieldImm w &&& 0xC0 = 0 := by
  rw [and_mustBeZero_iff]
  simp [mustBeZero, fieldRd, fieldRs, fieldImm, and_ones_two]

/-! ### The rows of the opcode map by operation code and format (R92, R93) -/

/-- The row of operation code op in format f: op and the format's must-be-zero bits are tested, nothing else. -/
def rowOfFormat (f : Format) (op : BitVec 4) : OpcodeRow :=
  { pattern := packWord op 0 0 0, mask := 0xF000 ||| mustBeZero f }

theorem rowHit_iff {r : OpcodeRow} : rowHit r w = true ↔ w &&& r.mask = r.pattern := beq_iff_eq

theorem rowHit_rowOfFormat_iff : rowHit (rowOfFormat f op) w = true ↔ fieldOp w = op ∧ w &&& mustBeZero f = 0 := by
  have hop : fieldOp (0xF000 ||| mustBeZero f) = BitVec.allOnes 4 := by cases f <;> decide
  rw [rowHit_iff, and_mustBeZero_iff, rowOfFormat, and_eq_packWord_iff, hop, BitVec.and_allOnes]
  simp [fieldRd, fieldRs, fieldImm, BitVec.extractLsb'_or]

/-- Every row of the map is the row of its operation code in that code's format. -/
theorem eq_rowOfFormat_of_mem : ∀ r ∈ opcodeRows,
    ∃ f ∈ formatOf (fieldOp r.pattern), r = rowOfFormat f (fieldOp r.pattern) := by decide

theorem rowOfFormat_mem : ∀ op, ∀ f ∈ formatOf op, rowOfFormat f op ∈ opcodeRows := by decide

/-- The row that a word matches is the one of the word's own operation code. -/
theorem mem_and_rowHit_iff {r : OpcodeRow} :
    r ∈ opcodeRows ∧ rowHit r w = true ↔
      ∃ f, formatOf (fieldOp w) = some f ∧ r = rowOfFormat f (fieldOp w) ∧ w &&& mustBeZero f = 0 := by
  constructor
  · rintro ⟨hr, hw⟩
    obtain ⟨f, hf, hrow⟩ := eq_rowOfFormat_of_mem r hr
    rw [hrow] at hw
    obtain ⟨hop, hzero⟩ := rowHit_rowOfFormat_iff.1 hw
    exact ⟨f, hop ▸ hf, hop ▸ hrow, hzero⟩
  · rintro ⟨f, hf, rfl, hzero⟩
    exact ⟨rowOfFormat_mem _ f hf, rowHit_rowOfFormat_iff.2 ⟨rfl, hzero⟩⟩

theorem eq_of_rowHit {r r' : OpcodeRow} (hr : r ∈ opcodeRows) (hr' : r' ∈ opcodeRows) (h : rowHit r w = true)
    (h' : rowHit r' w = true) : r = r' := by
  obtain ⟨f, hf, rfl, -⟩ := mem_and_rowHit_iff.1 ⟨hr, h⟩
  obtain ⟨f', hf', rfl, -⟩ := mem_and_rowHit_iff.1 ⟨hr', h'⟩
  obtain rfl : f = f' := Option.some.inj (hf.symm.trans hf')
  rfl

/-! ### The words of a format: the tested bits and the operand fields make the word (R92, R94 to R97) -/

theorem packWord_z_iff : packWord op 0 0 0 = w ↔ rowHit (rowOfFormat .z op) w = true := by
  rw [packWord_eq_iff, rowHit_rowOfFormat_iff, and_mustBeZero_z]

theorem packWord_r_iff :
    packWord op rd rs 0 = w ↔ rowHit (rowOfFormat .r op) w = true ∧ fieldRd w = rd ∧ fieldRs w = rs := by
  rw [packWord_eq_iff, rowHit_rowOfFormat_iff, and_mustBeZero_r]
  tauto

theorem packWord_s_iff :
    packWord op rd 0 (n.setWidth 8) = w ↔
      rowHit (rowOfFormat .s op) w = true ∧ fieldRd w = rd ∧ fieldImm6 w = n := by
  rw [packWord_eq_iff, rowHit_rowOfFormat_iff, and_mustBeZero_s, fieldImm_eq_setWidth_iff]
  tauto

theorem packWord_m_iff : packWord op rd 0 0 = w ↔ rowHit (rowOfFormat .m op) w = true ∧ fieldRd w = rd := by
  rw [packWord_eq_iff, rowHit_rowOfFormat_iff, and_mustBeZero_m]
  tauto

theorem packWord_i_iff :
    packWord op rd 0 imm = w ↔ rowHit (rowOfFormat .i op) w = true ∧ fieldRd w = rd ∧ fieldImm w = imm := by
  rw [packWord_eq_iff, rowHit_rowOfFormat_iff, and_mustBeZero_i]
  tauto

theorem packWord_b_iff :
    packWord op 0 0 (n.setWidth 8) = w ↔ rowHit (rowOfFormat .b op) w = true ∧ fieldImm6 w = n := by
  rw [packWord_eq_iff, rowHit_rowOfFormat_iff, and_mustBeZero_b, fieldImm_eq_setWidth_iff]
  tauto

/-! ### Decode as a search through the map (R102) -/

/-- The rows of the opcode map, each with the instruction that it reads from w. -/
def readings (w : ControlWord) : List (OpcodeRow × Instr) :=
  [(rowWait, .wait), (rowInit, .init), (rowLdw, .ldw), (rowLdp, .ldp), (rowXorm, .xorm (vregOfBits (fieldRd w))),
    (rowXori, .xori (vregOfBits (fieldRd w)) (fieldImm w)),
    (rowAdd, .add (vregOfBits (fieldRd w)) (vregOfBits (fieldRs w))),
    (rowRotl, .rotl (vregOfBits (fieldRd w)) (fieldImm6 w)),
    (rowXor, .xor (vregOfBits (fieldRd w)) (vregOfBits (fieldRs w))), (rowRed, .red), (rowHalt, .halt),
    (rowBfw, .bfw (fieldImm6 w)), (rowJmp, .jmp (fieldImm6 w)), (rowCall, .call (fieldImm6 w)), (rowRet, .ret)]

/-- The instruction of the first row that w matches, else d. -/
def firstHit (w : ControlWord) (d : Decoded) (rows : List (OpcodeRow × Instr)) : Decoded :=
  rows.foldr (fun e rest => if rowHit e.1 w then .instr e.2 else rest) d

/-- Why a word that matches no row is reserved. -/
def reservedBy (w : ControlWord) : Reserved := if fieldOp w = 0 then .opcodeZero else .mustBeZero

theorem map_fst_readings (w : ControlWord) : (readings w).map Prod.fst = opcodeRows := rfl

theorem decode_eq_firstHit (w : ControlWord) : decode w = firstHit w (.reserved (reservedBy w)) (readings w) := by
  rw [reservedBy, apply_ite Decoded.reserved]
  rfl

theorem firstHit_cases (w : ControlWord) (d : Decoded) (rows : List (OpcodeRow × Instr)) :
    (∃ e ∈ rows, rowHit e.1 w = true ∧ firstHit w d rows = .instr e.2) ∨
      ((∀ e ∈ rows, rowHit e.1 w = false) ∧ firstHit w d rows = d) := by
  induction rows with
  | nil => exact .inr ⟨by simp, rfl⟩
  | cons e rows ih =>
    have hcons : firstHit w d (e :: rows) = if rowHit e.1 w then .instr e.2 else firstHit w d rows := rfl
    by_cases he : rowHit e.1 w = true
    · exact .inl ⟨e, by simp, he, by rw [hcons, if_pos he]⟩
    · rw [hcons, if_neg he]
      rcases ih with ⟨e', hmem, hhit, heq⟩ | ⟨hmiss, heq⟩
      · exact .inl ⟨e', List.mem_cons_of_mem e hmem, hhit, heq⟩
      · exact .inr ⟨List.forall_mem_cons.2 ⟨Bool.not_eq_true _ ▸ he, hmiss⟩, heq⟩

/-- Everything decode can answer: the reading of a row that matches, or reserved when no row matches. -/
theorem decode_cases (w : ControlWord) :
    (∃ e ∈ readings w, rowHit e.1 w = true ∧ decode w = .instr e.2) ∨
      ((∀ r ∈ opcodeRows, rowHit r w = false) ∧ decode w = .reserved (reservedBy w)) := by
  rw [decode_eq_firstHit, ← map_fst_readings w, List.forall_mem_map]
  exact firstHit_cases w _ (readings w)

theorem row_mem_of_mem_readings {e : OpcodeRow × Instr} (h : e ∈ readings w) : e.1 ∈ opcodeRows :=
  map_fst_readings w ▸ List.mem_map_of_mem h

/-- No other row can be read first, since no other row matches. -/
theorem decode_of_mem_readings {e : OpcodeRow × Instr} (he : e ∈ readings w) (hw : rowHit e.1 w = true) :
    decode w = .instr e.2 := by
  rcases decode_cases w with ⟨e', he', hw', hdec⟩ | ⟨hmiss, -⟩
  · have hrow : e.1 = e'.1 := eq_of_rowHit (row_mem_of_mem_readings he) (row_mem_of_mem_readings he') hw hw'
    have hnodup : ((readings w).map Prod.fst).Nodup := by
      rw [map_fst_readings]
      decide
    rw [hdec, List.inj_on_of_nodup_map hnodup he he' hrow]
  · simp [hmiss _ (row_mem_of_mem_readings he)] at hw

theorem decode_eq_instr_iff_reading {i : Instr} :
    decode w = .instr i ↔ ∃ e ∈ readings w, rowHit e.1 w = true ∧ e.2 = i := by
  constructor
  · intro h
    rcases decode_cases w with ⟨e, he, hw, hdec⟩ | ⟨-, hdec⟩
    · exact ⟨e, he, hw, Decoded.instr.inj (hdec.symm.trans h)⟩
    · simp [hdec] at h
  · rintro ⟨e, he, hw, rfl⟩
    exact decode_of_mem_readings he hw

end

end Sys2Proof

namespace Sys2Proof.Certificates

open Sys2Proof

/-- Settles O3: a row that a word matches is the row of the word's own operation code. -/
theorem opcodeRowsAreDisjoint : Obligations.OpcodeRowsAreDisjoint := fun _ _ _ hr hr' h h' =>
  eq_of_rowHit hr hr' (rowHit_iff.2 h) (rowHit_iff.2 h')

/-- Settles O2: among the fifteen readings of a word only one is of the given operation. -/
theorem eachTableRowDecodesToItsOperation : Obligations.EachTableRowDecodesToItsOperation := by
  intro w
  simp [decode_eq_instr_iff_reading, readings, rowHit_iff, vregOfBits_eq_iff, rowWait, rowInit, rowLdw, rowLdp, rowXorm,
    rowXori, rowAdd, rowRotl, rowXor, rowRed, rowHalt, rowBfw, rowJmp, rowCall, rowRet, fieldRd, fieldRs, fieldImm,
    fieldImm6]

end Sys2Proof.Certificates

namespace Sys2Proof

/-! ### Decode and encode (R102) -/

/-- By the rows of the opcode map: each holds exactly of the words that encode writes for its operation. -/
theorem decode_eq_instr_iff {w : ControlWord} {i : Instr} : decode w = .instr i ↔ encode i = w := by
  obtain ⟨hwait, hinit, hldw, hldp, hxorm, hxori, hadd, hrotl, hxor, hred, hhalt, hbfw, hjmp, hcall, hret⟩ :=
    Certificates.eachTableRowDecodesToItsOperation w
  cases i with
  | wait => rw [← hwait, encode, packWord_z_iff, rowHit_iff]; rfl
  | init => rw [← hinit, encode, packWord_z_iff, rowHit_iff]; rfl
  | ldw => rw [← hldw, encode, packWord_z_iff, rowHit_iff]; rfl
  | ldp => rw [← hldp, encode, packWord_z_iff, rowHit_iff]; rfl
  | xorm rd => rw [← hxorm, encode, packWord_m_iff, rowHit_iff]; rfl
  | xori rd imm => rw [← hxori, encode, packWord_i_iff, rowHit_iff]; rfl
  | add rd rs => rw [← hadd, encode, packWord_r_iff, rowHit_iff]; rfl
  | rotl rd n => rw [← hrotl, encode, packWord_s_iff, rowHit_iff]; rfl
  | xor rd rs => rw [← hxor, encode, packWord_r_iff, rowHit_iff]; rfl
  | red => rw [← hred, encode, packWord_z_iff, rowHit_iff]; rfl
  | halt => rw [← hhalt, encode, packWord_z_iff, rowHit_iff]; rfl
  | bfw t => rw [← hbfw, encode, packWord_b_iff, rowHit_iff]; rfl
  | jmp t => rw [← hjmp, encode, packWord_b_iff, rowHit_iff]; rfl
  | call t => rw [← hcall, encode, packWord_b_iff, rowHit_iff]; rfl
  | ret => rw [← hret, encode, packWord_z_iff, rowHit_iff]; rfl

section
variable {w : ControlWord} {f : Format}

theorem decode_eq_reserved_iff :
    (∃ why, decode w = .reserved why) ↔ ∀ r ∈ opcodeRows, rowHit r w = false := by
  rcases decode_cases w with ⟨e, he, hw, hdec⟩ | ⟨hmiss, hdec⟩
  · constructor
    · rintro ⟨why, h⟩
      simp [h] at hdec
    · intro h
      simp [h _ (row_mem_of_mem_readings he)] at hw
  · exact iff_of_true ⟨_, hdec⟩ hmiss

/-! ### Decode by operation code and format (R98, R99) -/

theorem formatOf_eq_none_iff : ∀ {op : BitVec 4}, formatOf op = none ↔ op = 0 := by decide

/-- R99. -/
theorem decode_of_no_format (h : formatOf (fieldOp w) = none) : decode w = .reserved .opcodeZero := by
  rcases decode_cases w with ⟨e, he, hw, -⟩ | ⟨-, hdec⟩
  · obtain ⟨f, hf, -⟩ := mem_and_rowHit_iff.1 ⟨row_mem_of_mem_readings he, hw⟩
    simp [h] at hf
  · rw [hdec, reservedBy, if_pos (formatOf_eq_none_iff.1 h)]

theorem decode_of_zeros (hf : formatOf (fieldOp w) = some f) (h : w &&& mustBeZero f = 0) :
    ∃ i, decode w = .instr i := by
  obtain ⟨hr, hw⟩ := mem_and_rowHit_iff.2 ⟨f, hf, rfl, h⟩
  rcases decode_cases w with ⟨e, -, -, hdec⟩ | ⟨hmiss, -⟩
  · exact ⟨e.2, hdec⟩
  · simp [hmiss _ hr] at hw

/-- R98. -/
theorem decode_of_nonzero (hf : formatOf (fieldOp w) = some f) (h : w &&& mustBeZero f ≠ 0) :
    decode w = .reserved .mustBeZero := by
  rcases decode_cases w with ⟨e, he, hw, -⟩ | ⟨-, hdec⟩
  · obtain ⟨f', hf', -, hzero⟩ := mem_and_rowHit_iff.1 ⟨row_mem_of_mem_readings he, hw⟩
    obtain rfl : f = f' := Option.some.inj (hf.symm.trans hf')
    exact absurd hzero h
  · have hop : fieldOp w ≠ 0 := fun h0 => by simp [formatOf_eq_none_iff.2 h0] at hf
    rw [hdec, reservedBy, if_neg hop]

end

end Sys2Proof

namespace Sys2Proof.Machine

/-! ### The unimplemented addresses (R105) and the step on a reserved word (R100) -/

theorem romAt_microRom_unimplemented {a : MicroAddr} (h : 0x24 ≤ a.toNat) : romAt microRom a = 0x0000 := by
  have hlt : a.toNat < 36 + 28 := a.isLt
  exact (Vector.getElem_append_right hlt h).trans (Vector.getElem_replicate _)

theorem engineStep_of_reserved {s : State} {why : Reserved} (h : decode (fetch s) = .reserved why) :
    engineStep s = .fault (.reservedWord why) := by
  simp [engineStep, perform, h]

/-- When it is the ENGINE's turn, the step is the engine's, on the state with that turn taken off the schedule. -/
theorem step_of_engineTurn {s : State} (h : Safety.engineTurn s = true) : step s = engineStep (nextTurn s).2 := by
  unfold step
  rcases hn : nextTurn s with ⟨_ | _, t⟩
  · rfl
  · simp [Safety.engineTurn, hn] at h

@[simp] theorem fetch_nextTurn (s : State) : fetch (nextTurn s).2 = fetch s := by
  rw [nextTurn_frame]
  rfl

end Sys2Proof.Machine

namespace Sys2Proof.Certificates

open Sys2Proof Sys2Proof.Machine Sys2Proof.Safety

/-- Settles O1: decode reads i from the one word that encode writes for i, and from no other. -/
theorem decodeAndEncodeAreInverse : Obligations.DecodeAndEncodeAreInverse := by
  refine ⟨fun i => decode_eq_instr_iff.2 rfl, fun w i => decode_eq_instr_iff.1, fun w => ?_⟩
  simp only [decode_eq_reserved_iff, ne_eq, ← rowHit_iff, Bool.not_eq_true]

/-- Settles O4, by the format of the word's operation code and the bits that the format requires to be zero. -/
theorem reservedWordsByFormat : Obligations.ReservedWordsByFormat := by
  have key (w : ControlWord) : (decode w = .reserved .opcodeZero ↔ fieldOp w = 0) ∧
      (decode w = .reserved .mustBeZero ↔
        fieldOp w ≠ 0 ∧ ∃ f, formatOf (fieldOp w) = some f ∧ w &&& mustBeZero f ≠ 0) := by
    rw [ne_eq, ← formatOf_eq_none_iff]
    rcases hf : formatOf (fieldOp w) with _ | f
    · simp [decode_of_no_format hf]
    · by_cases h : w &&& mustBeZero f = 0
      · obtain ⟨i, hi⟩ := decode_of_zeros hf h
        simp [hi, h]
      · simpa [decode_of_nonzero hf h] using h
  exact ⟨fun w => (key w).1, fun w => (key w).2⟩

/-- Settles O5, word by word. -/
theorem sampleWordsDecode : Obligations.SampleWordsDecode := by
  unfold Obligations.SampleWordsDecode
  decide

/-- Settles O10: the word at an unimplemented address has operation code 0. -/
theorem unimplementedAddressFaults : Obligations.UnimplementedAddressFaults := by
  intro s hrom hupc hturn
  have hfetch : fetch s = 0x0000 := by rw [fetch, hrom, romAt_microRom_unimplemented hupc]
  have hdec : decode (fetch (nextTurn s).2) = .reserved .opcodeZero := by
    rw [fetch_nextTurn, hfetch]
    exact decode_of_no_format rfl
  exact ⟨hfetch, by rw [step_of_engineTurn hturn, engineStep_of_reserved hdec]⟩

end Sys2Proof.Certificates
end

section
/-! SUPPORT. The statements of the family 40_init: INIT makes the state words from the key (R120) and so realises the
source-level Init (R123). -/

namespace Sys2Proof.Safety

open Sys2Proof.Machine Sys2Proof.Machine.Reference

@[simp] theorem words_atWords (s : State) (v : V) (a : MicroAddr) : words (atWords s v a) = v := rfl

/-- What INIT does, in every state: the key alone makes the state words, and ptr is 0 (R120). -/
theorem exec_init (s : State) :
    exec .init s = .next (atWords { s with ptr := 0 } (init s.k0 s.k1) (s.upc + 1)) := rfl

/-- INIT stands at one address (R120), found by reading all 64 words of the micro-ROM. -/
theorem romAt_microRom_eq_encode_init_iff : ∀ {a : MicroAddr}, romAt microRom a = encode .init ↔ a = 0x01 := by decide

end Sys2Proof.Safety

namespace Sys2Proof.Certificates

open Sys2Proof Sys2Proof.Machine Sys2Proof.Safety

/-- Settles O11, by reading INIT's next state field by field; the constants of Init are the literals of R121. -/
theorem initXorsConstantsWithKey : Obligations.InitXorsConstantsWithKey :=
  ⟨rfl, fun _ => romAt_microRom_eq_encode_init_iff, exec_init⟩

/-- Settles O12: INIT's next state is given by its state words, which are Init(k0, k1). -/
theorem initRealisesTheSourceFunction : Obligations.InitRealisesTheSourceFunction :=
  fun s => ⟨_, exec_init s, words_atWords ..⟩

end Sys2Proof.Certificates
end

section
/-! SUPPORT. The statements of the family 41_sipround: ADD, ROTL and XOR write one state word (R130 to R132), CALL RND is
one SipRound (R136), and control does not see the key, the message or the state words (R138). -/

namespace Sys2Proof

/-! ### The control words of formats R and S (R92) -/

theorem packWord_r (op : BitVec 4) (rd rs : BitVec 2) :
    packWord op rd rs 0 = (op.setWidth 16 <<< 12) ||| (rd.setWidth 16 <<< 10) ||| (rs.setWidth 16 <<< 8) :=
  BitVec.or_zero

theorem packWord_s (op : BitVec 4) (rd : BitVec 2) (n : BitVec 6) :
    packWord op rd 0 (n.setWidth 8) = (op.setWidth 16 <<< 12) ||| (rd.setWidth 16 <<< 10) ||| n.setWidth 16 := by
  have hrs : (0 : BitVec 2).setWidth 16 <<< 8 = 0#16 := rfl
  rw [packWord, hrs, BitVec.or_zero, BitVec.setWidth_setWidth (by decide)]

end Sys2Proof

namespace Sys2Proof.Machine

/-! ### The rotate amounts (R131) and the frame of one written state word (R130 to R132) -/

/-- The rotate amount of a control word that is a ROTL. -/
def rotateAmount : Decoded → Option (BitVec 6)
  | .instr (.rotl _ n) => some n
  | _ => none

/-- SipRound's five amounts, found by reading all 64 words of the micro-ROM. -/
theorem rotateAmount_microRom :
    ∀ a, ∀ n ∈ rotateAmount (decode (romAt microRom a)), n ∈ ([13, 16, 17, 21, 32] : List (BitVec 6)) := by
  decide

/-- What writing one state word and going on leaves: the other words, upc + 1 modulo 64, and every other field. -/
theorem advance_writeV_frame {s t : State} {rd : VReg} {x : Word} (h : t = (s.writeV rd x).advance) :
    (∀ r, r ≠ rd → t.readV r = s.readV r) ∧ t.upc.toNat = (s.upc.toNat + 1) % 64 ∧
      t = { s with v0 := t.v0, v1 := t.v1, v2 := t.v2, v3 := t.v3, upc := t.upc } := by
  subst h
  refine ⟨fun r hr => ?_, ?_, ?_⟩
  · rw [State.readV_advance, State.readV_writeV_other s rd r x hr]
  · rw [State.advance_upc, State.writeV_upc, BitVec.toNat_add]
    rfl
  · cases rd <;> rfl

/-! ### The control registers (R138) -/

/-- What decides which control word comes next: no key, no message, no state word. -/
structure Control where
  upc : MicroAddr
  lr : MicroAddr
  inlen : Word
  ptr : Word
  busy : Bool
  rom : Vector ControlWord 64

def controlOf (s : State) : Control :=
  { upc := s.upc, lr := s.lr, inlen := s.inlen, ptr := s.ptr, busy := s.busy, rom := s.rom }

/-- What an operation makes of the control registers, from the control registers alone. -/
def Control.after (c : Control) : Instr → Control
  | .wait => if c.busy then { c with upc := c.upc + 1 } else c
  | .init => { c with ptr := 0, upc := c.upc + 1 }
  | .ldw => { c with ptr := c.ptr + 8, upc := c.upc + 1 }
  | .halt => { c with busy := false, upc := 0 }
  | .bfw t => if 8 ≤ (c.inlen - c.ptr).toNat then { c with upc := t } else { c with upc := c.upc + 1 }
  | .jmp t => { c with upc := t }
  | .call t => { c with lr := c.upc + 1, upc := t }
  | .ret => { c with upc := c.lr }
  | .ldp | .xorm _ | .xori _ _ | .add _ _ | .rotl _ _ | .xor _ _ | .red => { c with upc := c.upc + 1 }

theorem controlOf_writeV_advance (s : State) (r : VReg) (x : Word) :
    controlOf (s.writeV r x).advance = { controlOf s with upc := s.upc + 1 } := by cases r <;> rfl

theorem controlOf_exec {i : Instr} {s t : State} (e : exec i s = .next t) : controlOf t = (controlOf s).after i := by
  cases i with
  | wait =>
    obtain rfl := Host.Outcome.next.inj e
    exact apply_ite controlOf ..
  | ldw =>
    rcases execLdw_cases s with ⟨-, h⟩ | ⟨-, h⟩
    · obtain rfl := Host.Outcome.next.inj (h.symm.trans e)
      rfl
    · cases h.symm.trans e
  | ldp =>
    rcases execLdp_cases s with ⟨-, h⟩ | ⟨-, h⟩
    · obtain rfl := Host.Outcome.next.inj (h.symm.trans e)
      rfl
    · cases h.symm.trans e
  | bfw a =>
    obtain rfl := Host.Outcome.next.inj e
    simp only [fullWordRemains, decide_eq_true_eq]
    exact apply_ite controlOf ..
  | xorm | xori | add | rotl | xor => cases e; exact controlOf_writeV_advance ..
  | init | red | halt | jmp | call | ret => cases e; rfl

theorem fetch_congr {s s' : State} (h : controlOf s = controlOf s') : fetch s = fetch s' :=
  congrArg (fun c : Control => romAt c.rom c.upc) h

/-- Engine steps from equal control registers lead to equal control registers. -/
theorem engineStep_controlOf_congr {s s' t t' : State} (h : controlOf s = controlOf s') (e : engineStep s = .next t)
    (e' : engineStep s' = .next t') : controlOf t = controlOf t' := by
  obtain ⟨i, hi, he⟩ := engineStep_next e
  obtain ⟨i', hi', he'⟩ := engineStep_next e'
  obtain rfl : i = i' := Decoded.instr.inj (by rw [← hi, ← hi', fetch_congr h])
  rw [controlOf_exec he, controlOf_exec he', h]

end Sys2Proof.Machine

namespace Sys2Proof.Certificates

open Sys2Proof Sys2Proof.Machine Sys2Proof.Safety

/-- Settles O13: the word written is the sum of two 64-bit words, whose number is the sum modulo 2^64. -/
theorem addIsModularAddition : Obligations.AddIsModularAddition := by
  refine fun rd rs s => ⟨packWord_r .., _, rfl, ?_, advance_writeV_frame rfl⟩
  rw [State.readV_advance, State.readV_writeV_same, add64, BitVec.toNat_add]

/-- Settles O14: the word written is the rotation, which moves each bit. -/
theorem rotlMovesEveryBit : Obligations.RotlMovesEveryBit := by
  refine fun rd n s => ⟨packWord_s .., fun a r k h => ?_, _, rfl, fun j hj => ?_, advance_writeV_frame rfl⟩
  · exact rotateAmount_microRom a k (by rw [h]; rfl)
  · rw [State.readV_advance, State.readV_writeV_same, rotl64_bit _ n hj]

/-- Settles O15, by the bits of the word written. -/
theorem xorIsBitwise : Obligations.XorIsBitwise := by
  refine fun rd rs s => ⟨packWord_r .., _, rfl, fun j => ?_, advance_writeV_frame rfl⟩
  rw [State.readV_advance, State.readV_writeV_same, BitVec.getLsbD_xor]

/-- Settles O51: the next control registers are a function of the control registers. -/
theorem controlDependsOnTheLengthOnly : Obligations.ControlDependsOnTheLengthOnly := by
  intro s s' t t' hupc hlr hinlen hptr hbusy hrom e e'
  have h : controlOf s = controlOf s' := by
    simp only [controlOf, hupc, hlr, hinlen, hptr, hbusy, hrom]
  exact Control.mk.inj (engineStep_controlOf_congr h e e')

/-- Settles O52, by the run of CALL RND from any address that holds it. -/
theorem callRndIsOneSipRound : Obligations.CallRndIsOneSipRound := by
  intro s hr hs hcall
  have hd : decode (romAt microRom s.upc) = .instr (.call 0x15) := by rwa [fetch, hr] at hcall
  exact run_callRnd hr hs hd (words s)

end Sys2Proof.Certificates
end

section
/-! SUPPORT. The statements of the family 42_absorb: LDW and XORM (R160, R161), and the absorption loop that they make
with RND (R163, R164). -/

namespace Sys2Proof

/-- The control words of format M (R92). -/
theorem packWord_m (op : BitVec 4) (rd : BitVec 2) :
    packWord op rd 0 0 = (op.setWidth 16 <<< 12) ||| (rd.setWidth 16 <<< 10) := by
  have hrs : (0 : BitVec 2).setWidth 16 <<< 8 = 0#16 := rfl
  rw [packWord_r, hrs, BitVec.or_zero]

end Sys2Proof

namespace Sys2Proof.Machine

/-- Bytes packed from position 0: byte i of the word is the i-th of them (R13, R69). -/
theorem packLE_map_range_bit (f : Nat → Byte) {n i j : Nat} (hn : n ≤ 8) (hi : i < n) (hj : j < 8) :
    (packLE 0 ((List.range n).map f)).getLsbD (8 * i + j) = (f i).getLsbD j := by
  have hlen : ((List.range n).map f).length = n := by simp
  have hbyte : ((List.range n).map f).getD i 0 = f i := by simp [hi]
  rw [packLE_bits _ 0 i j hj (by omega), if_pos (by omega), Nat.sub_zero, hbyte]

/-- The word at off, bit by bit (R13, R163). -/
theorem Reference.wordAt_bit (input : Nat → Byte) (off : Nat) {i j : Nat} (hi : i < 8) (hj : j < 8) :
    (Reference.wordAt input off).getLsbD (8 * i + j) = (input (off + i)).getLsbD j :=
  packLE_map_range_bit (fun i => input (off + i)) le_rfl hi hj

theorem exec_ldw_outside {s : State} (h : s.buflen < s.ptr.toNat + 8) : exec .ldw s = .fault .messageReadStuck := by
  rcases execLdw_cases s with ⟨hin, -⟩ | ⟨-, e⟩
  · exact absurd h (Nat.not_lt.mpr hin)
  · exact e

/-! ### Where LDW and XORM stand, found by reading all 64 words of the micro-ROM -/

theorem romAt_microRom_eq_encode_ldw_iff : ∀ {a : MicroAddr}, romAt microRom a = encode .ldw ↔ a = 0x0F := by decide

theorem romAt_microRom_ne_encode_xorm :
    ∀ a, romAt microRom a ≠ encode (.xorm .v1) ∧ romAt microRom a ≠ encode (.xorm .v2) := by decide

theorem xorm_in_microRom {a : MicroAddr} {r : VReg} (h : decode (romAt microRom a) = .instr (.xorm r)) :
    r = .v3 ∨ r = .v0 := by
  have hword : romAt microRom a = encode (.xorm r) := (decode_eq_instr_iff.1 h).symm
  obtain ⟨h₁, h₂⟩ := romAt_microRom_ne_encode_xorm a
  cases r with
  | v0 => exact .inr rfl
  | v1 => exact absurd hword h₁
  | v2 => exact absurd hword h₂
  | v3 => exact .inl rfl

end Sys2Proof.Machine

namespace Sys2Proof.Safety

open Sys2Proof.Machine

/-- Only a hash in progress is away from WAIT (R212 item 2). -/
theorem Sequenced.busy_of_upc_ne {s : State} (h : Sequenced s) (hu : s.upc ≠ 0) : s.busy = true := by
  cases hb : s.busy
  · exact absurd (h.idleAtZero hb) hu
  · rfl

/-- Where LDW stands the word it reads lies inside the message, at a whole number of words (R212). -/
theorem Sequenced.at_ldw {s : State} (h : Sequenced s) (hu : s.upc = 0x0F) :
    s.ptr.toNat + 8 ≤ s.inlen.toNat ∧ s.ptr.toNat % 8 = 0 := by
  have h0 : s.upc ≠ 0 := by rw [hu]; decide
  have h1 : s.upc ≠ 1 := by rw [hu]; decide
  have hremains : 8 ≤ s.inlen.toNat - s.ptr.toNat := h.wordRemains hu
  exact ⟨by omega, h.ptrAligned (h.busy_of_upc_ne h0) h0 h1⟩

theorem eq_atWords_of_upc {s : State} {a : MicroAddr} (hu : s.upc = a) : s = atWords s (words s) a :=
  hu ▸ eq_atWords s

end Sys2Proof.Safety

namespace Sys2Proof.Certificates

open Sys2Proof Sys2Proof.Machine Sys2Proof.Safety

/-- Settles O19: inside the buffer m is the word at ptr, whose bits are the message bytes'. -/
theorem ldwLoadsALittleEndianWord : Obligations.LdwLoadsALittleEndianWord := by
  refine ⟨rfl, fun _ => romAt_microRom_eq_encode_ldw_iff, fun s h => ?_, fun _ => exec_ldw_outside,
    fun _ hinv => hinv.sequenced.at_ldw⟩
  exact ⟨_, exec_ldw_at h (words s) s.upc, fun _ _ => Reference.wordAt_bit _ _, rfl, rfl, rfl, rfl⟩

/-- Settles O20, by the bits of the word written. -/
theorem xormFoldsTheMessageWord : Obligations.XormFoldsTheMessageWord := by
  refine fun rd s => ⟨packWord_m .., fun _ _ => xorm_in_microRom, _, rfl, fun j => ?_, advance_writeV_frame rfl⟩
  rw [State.readV_advance, State.readV_writeV_same, BitVec.getLsbD_xor]

/-- Settles O53, by the run of one pass and of the first n passes of the loop. -/
theorem absorptionLoopCompressesEachWord : Obligations.AbsorptionLoopCompressesEachWord := by
  refine ⟨by decide, fun s hr hs hu hp hb => ?_, fun s hr hs hu hp hb => ?_⟩
  · have hpass := run_pass hr hs hp hb (words s)
    rw [← eq_atWords_of_upc hu, ← hu] at hpass
    exact hpass
  · have hwords : 8 * (s.inlen.toNat / 8) ≤ s.inlen.toNat := by omega
    obtain ⟨m, lr, hloop⟩ := run_passes hr hs hp hb (words s) hwords
    rw [← eq_atWords_of_upc hu] at hloop
    exact ⟨_, hloop, rfl, words_atWords .., afterPasses_ptr m lr hwords⟩

end Sys2Proof.Certificates
end

section
/-! SUPPORT. The statements of the family 43_padding: the padding word bit by bit (R180, R183), LDP, which makes it
(R181), and the final block, which compresses it (R184). -/

namespace Sys2Proof.Machine

/-! ### The padding word bit by bit (R180)

With at most seven bytes below it the length byte stands alone in bits 63:56. -/

/-- Above the packed bytes every bit is 0 (R13, R69). -/
theorem packLE_map_range_bit_above (f : Nat → Byte) {n b : Nat} (hn : n ≤ 8) (hb : 8 * n ≤ b) :
    (packLE 0 ((List.range n).map f)).getLsbD b = false := by
  have hlen : ((List.range n).map f).length = n := by simp
  rw [← Nat.div_add_mod b 8, packLE_bits _ 0 _ _ (Nat.mod_lt b (by decide)) (by omega), if_neg (by omega)]

theorem lengthByte_bit_below (x : Word) {b : Nat} (hb : b < 56) : (lengthByte x).getLsbD b = false := by
  rw [lengthByte_bits, if_neg (by omega)]

section
variable (x : Word) (f : Nat → Byte) {n : Nat} (hn : n < 8)
include hn

theorem paddingWord_bit_length {j : Nat} (hj : j < 8) :
    (paddingWord x ((List.range n).map f)).getLsbD (56 + j) = x.getLsbD j := by
  have hlength : (lengthByte x).getLsbD (56 + j) = x.getLsbD j := by
    rw [lengthByte_bits, if_pos (by omega), Nat.add_sub_cancel_left]
  rw [paddingWord, BitVec.getLsbD_or, hlength, packLE_map_range_bit_above f hn.le (by omega), Bool.or_false]

theorem paddingWord_bit_leftover {i j : Nat} (hi : i < n) (hj : j < 8) :
    (paddingWord x ((List.range n).map f)).getLsbD (8 * i + j) = (f i).getLsbD j := by
  rw [paddingWord, BitVec.getLsbD_or, lengthByte_bit_below x (by omega), packLE_map_range_bit f hn.le hi hj,
    Bool.false_or]

theorem paddingWord_bit_between {b : Nat} (hlo : 8 * n ≤ b) (hhi : b < 56) :
    (paddingWord x ((List.range n).map f)).getLsbD b = false := by
  rw [paddingWord, BitVec.getLsbD_or, lengthByte_bit_below x hhi, packLE_map_range_bit_above f hn.le hlo,
    Bool.false_or]

end

namespace Reference

/-- PadWord is LDP's word of the length modulo 2^64 and the leftover bytes. -/
theorem padWord_eq_paddingWord (input : Nat → Byte) (n : Nat) :
    padWord input n =
      paddingWord (BitVec.ofNat 64 n) ((List.range (n % 8)).map fun i => input (n - n % 8 + i)) := by
  have hbyte : (BitVec.ofNat 64 n).toNat % 256 = n % 256 := by
    rw [BitVec.toNat_ofNat]
    omega
  rw [padWord, foldl_or_eq_packLE (fun i => input (n - n % 8 + i)), paddingWord, lengthByte_eq, hbyte]

/-- Only the length modulo 256 and the leftover bytes enter PadWord (R183). -/
theorem padWord_congr_mod {input input' : Nat → Byte} {n n' : Nat} (hlen : n % 256 = n' % 256)
    (hbytes : ∀ i, i < n % 8 → input (n - n % 8 + i) = input' (n' - n' % 8 + i)) :
    padWord input n = padWord input' n' := by
  have hleft : n' % 8 = n % 8 := by omega
  rw [padWord, padWord, ← hlen, hleft]
  refine List.foldl_ext _ _ _ fun b i hi => ?_
  rw [hbytes i (List.mem_range.mp hi), hleft]

end Reference

/-! ### LDP (R181) -/

theorem append_accessOf (reads : List MsgRead) (off n : Nat) :
    reads ++ accessOf off n = if n = 0 then reads else reads ++ [{ off := off, count := n }] := by
  rw [accessOf, apply_ite (reads ++ ·), List.append_nil]

theorem exec_ldp_inside {s : State} (h : s.ptr.toNat + s.inlen.toNat % 8 ≤ s.buflen) :
    exec .ldp s = .next { s with
      m := paddingWord s.inlen (Memory.bytes s.msg s.ptr.toNat (s.inlen.toNat % 8)), upc := s.upc + 1
      msgReads := s.msgReads ++ accessOf s.ptr.toNat (s.inlen.toNat % 8) } := by
  rw [← leftOf_eq] at h ⊢
  rcases execLdp_cases s with ⟨-, e⟩ | ⟨hout, -⟩
  · exact e
  · exact absurd hout (Nat.not_lt.mpr h)

theorem exec_ldp_outside {s : State} (h : s.buflen < s.ptr.toNat + s.inlen.toNat % 8) :
    exec .ldp s = .fault .messageReadStuck := by
  rw [← leftOf_eq] at h
  rcases execLdp_cases s with ⟨hin, -⟩ | ⟨-, e⟩
  · exact absurd h (Nat.not_lt.mpr hin)
  · exact e

/-- LDP stands at one address (R181), found by reading all 64 words of the micro-ROM. -/
theorem romAt_microRom_eq_encode_ldp_iff : ∀ {a : MicroAddr}, romAt microRom a = encode .ldp ↔ a = 0x03 := by decide

end Sys2Proof.Machine

namespace Sys2Proof.Certificates

open Sys2Proof Sys2Proof.Machine Sys2Proof.Safety

/-- Settles O21: inside the buffer m is the padding word of the bytes at ptr, and with ptr after the full words, where
the invariant puts it at 0x03, these are the leftover bytes. -/
theorem ldpBuildsThePaddingWord : Obligations.LdpBuildsThePaddingWord := by
  refine ⟨rfl, fun _ => romAt_microRom_eq_encode_ldp_iff, fun s h => ?_, fun _ => exec_ldp_outside,
    fun s hinv hu => ?_⟩
  · have hleft : s.inlen.toNat % 8 < 8 := Nat.mod_lt _ (by decide)
    exact ⟨_, exec_ldp_inside h, fun _ => paddingWord_bit_length _ _ hleft,
      fun _ _ => paddingWord_bit_leftover _ _ hleft, fun _ => paddingWord_bit_between _ _ hleft, rfl,
      append_accessOf .., rfl⟩
  · have hptr : s.ptr.toNat = 8 * (s.inlen.toNat / 8) := hinv.sequenced.ptrAtPadding hu
    exact ⟨by omega, fun hb => ⟨_, exec_ldp_at hptr hb (words s) s.upc, rfl⟩⟩

/-- Settles O22, by the bits of LDP's word of the same length and leftover bytes. -/
theorem padWordBitByBit : Obligations.PadWordBitByBit := by
  intro input n _
  have hleft : n % 8 < 8 := Nat.mod_lt _ (by decide)
  rw [Reference.padWord_eq_paddingWord]
  refine ⟨fun j hj => ?_, fun _ _ => paddingWord_bit_leftover _ _ hleft, fun _ => paddingWord_bit_between _ _ hleft⟩
  rw [paddingWord_bit_length _ _ hleft hj, BitVec.getLsbD_ofNat, decide_eq_true (by omega), Bool.true_and]

/-- Settles O23: PadWord's loop starts from equal words and ORs in equal bytes. -/
theorem padWordEncodesTheLengthModulo256 : Obligations.PadWordEncodesTheLengthModulo256 :=
  fun _ _ _ _ => Reference.padWord_congr_mod

/-- Settles O54, by the run of the final block from any state words. -/
theorem finalBlockCompressesThePaddingWord : Obligations.FinalBlockCompressesThePaddingWord := by
  refine ⟨by decide, fun s hr hs hu hp hb => ?_⟩
  have hblock := run_finalBlock hr hs hp hb (words s)
  rw [← eq_atWords_of_upc hu] at hblock
  exact hblock

end Sys2Proof.Certificates
end

section
/-! SUPPORT. The statements of the family 44_finalize: XORI changes the low byte of one state word (R190), RED makes the
digest (R191), and finalization is Finalize of the state words (R194). -/

namespace Sys2Proof

/-- The control words of format I (R92). -/
theorem packWord_i (op : BitVec 4) (rd : BitVec 2) (imm : BitVec 8) :
    packWord op rd 0 imm = (op.setWidth 16 <<< 12) ||| (rd.setWidth 16 <<< 10) ||| imm.setWidth 16 := by
  have hrs : (0 : BitVec 2).setWidth 16 <<< 8 = 0#16 := rfl
  rw [packWord, hrs, BitVec.or_zero]

end Sys2Proof

namespace Sys2Proof.Machine

/-! ### The XOR immediate is zero-extended (R95) -/

theorem xorImmediate_bit_low (imm : BitVec 8) {j : Nat} (hj : j < 8) :
    (xorImmediate imm).getLsbD j = imm.getLsbD j := by
  rw [xorImmediate, zext64, BitVec.getLsbD_setWidth, decide_eq_true (by omega), Bool.true_and]

theorem xorImmediate_bit_high (imm : BitVec 8) {j : Nat} (hj : 8 ≤ j) : (xorImmediate imm).getLsbD j = false := by
  rw [xorImmediate, zext64, BitVec.getLsbD_setWidth, BitVec.getLsbD_of_ge imm j hj, Bool.and_false]

/-! ### Where XORI and RED stand, found by reading all 64 words of the micro-ROM -/

/-- The operands of a control word that is an XORI. -/
def xoriOperands : Decoded → Option (VReg × BitVec 8)
  | .instr (.xori r k) => some (r, k)
  | _ => none

theorem xoriOperands_microRom :
    ∀ a, ∀ p ∈ xoriOperands (decode (romAt microRom a)), p = (.v2, 0xFF) := by decide

theorem xori_in_microRom {a : MicroAddr} {r : VReg} {k : BitVec 8}
    (h : decode (romAt microRom a) = .instr (.xori r k)) : r = .v2 ∧ k = 0xFF :=
  Prod.mk.inj (xoriOperands_microRom a (r, k) (by rw [h]; rfl))

theorem romAt_microRom_eq_encode_red_iff : ∀ {a : MicroAddr}, romAt microRom a = encode .red ↔ a = 0x0D := by decide

end Sys2Proof.Machine

namespace Sys2Proof.Certificates

open Sys2Proof Sys2Proof.Machine Sys2Proof.Safety

/-- Settles O24, by the bits of the word written: the zero-extended immediate has none from bit 8 up. -/
theorem xoriTouchesTheLowByteOnly : Obligations.XoriTouchesTheLowByteOnly := by
  refine fun rd imm s => ⟨packWord_i .., fun _ _ _ => xori_in_microRom, _, rfl, fun j hj => ?_, fun j hj => ?_,
    advance_writeV_frame rfl⟩
  · rw [State.readV_advance, State.readV_writeV_same, BitVec.getLsbD_xor, xorImmediate_bit_low imm hj]
  · rw [State.readV_advance, State.readV_writeV_same, BitVec.getLsbD_xor, xorImmediate_bit_high imm hj,
      Bool.xor_false]

/-- Settles O55, by the run of finalization from any state words. -/
theorem finalizationGivesTheReducedDigest : Obligations.FinalizationGivesTheReducedDigest := by
  refine ⟨by decide, fun s hr hs hu => ?_⟩
  have hrun := run_finalization hr hs (words s)
  rw [← eq_atWords_of_upc hu] at hrun
  exact hrun

/-- Settles O25, by RED's one address and its next state, which writes digest and upc only. -/
theorem redReducesTheFourWords : Obligations.RedReducesTheFourWords :=
  ⟨rfl, fun _ => romAt_microRom_eq_encode_red_iff, fun _ => rfl⟩

end Sys2Proof.Certificates
end

section
/-! SUPPORT. The statements of the family 45_sequencer about single steps and the whole hash: the engine's step (R200),
WAIT, HALT, JMP and CALL (R201 to R205), the micro-ROM (R207), START (R209) and a started hash (R211). -/

namespace Sys2Proof

/-- The control words of format B (R92). -/
theorem packWord_b (op : BitVec 4) (t : MicroAddr) :
    packWord op 0 0 (t.setWidth 8) = (op.setWidth 16 <<< 12) ||| t.setWidth 16 := by
  have hrd : (0 : BitVec 2).setWidth 16 <<< 10 = 0#16 := rfl
  rw [packWord_s, hrd, BitVec.or_zero]

end Sys2Proof

namespace Sys2Proof.Machine

/-! ### When an operation has a next state (R62, R76, R200) -/

theorem exec_ldw_inside {s : State} (h : s.ptr.toNat + 8 ≤ s.buflen) : ∃ t, exec .ldw s = .next t := by
  rcases execLdw_cases s with ⟨-, e⟩ | ⟨hout, -⟩
  · exact ⟨_, e⟩
  · exact absurd hout (Nat.not_lt.mpr h)

/-- Only LDW and LDP read the message, and only a read can be stuck. -/
theorem exec_next_of_no_load {i : Instr} (hw : i ≠ .ldw) (hp : i ≠ .ldp) (s : State) : ∃ t, exec i s = .next t := by
  cases i with
  | ldw => exact absurd rfl hw
  | ldp => exact absurd rfl hp
  | wait | init | xorm | xori | add | rotl | xor | red | halt | bfw | jmp | call | ret => exact ⟨_, rfl⟩

/-! ### The flags and the branch condition (R203, R209) -/

theorem fullWordRemains_iff (s : State) :
    fullWordRemains s = true ↔ 8 ≤ (s.inlen.toNat + (2 ^ 64 - s.ptr.toNat)) % 2 ^ 64 := by
  rw [fullWordRemains, decide_eq_true_eq, BitVec.toNat_sub, Nat.add_comm]

/-- An accepted START (R209). -/
theorem hostStep_start {s : State} {val : Word} (hidle : s.busy = false) (hval : val.getLsbD 0 = true) :
    hostStep (.write 0x00 8 val) s = .next { s with busy := true, done := false } := by
  rw [hostStep_write_target (r := .ctrl) rfl, hostWriteReg_ctrl, if_pos ⟨hval, hidle⟩]

/-! ### The micro-ROM (R83, R207) -/

/-- The micro-operations that neither branch nor write ptr go on to the next address; they stand here. -/
def straightSites : List MicroAddr :=
  [0x03, 0x04, 0x07, 0x08, 0x0D, 0x10, 0x13, 0x15, 0x16, 0x17, 0x18, 0x19, 0x1A, 0x1B, 0x1C, 0x1D, 0x1E, 0x1F, 0x20,
    0x21, 0x22]

/-- The addresses of the eight CALLs. -/
def callSites : List MicroAddr := [0x05, 0x06, 0x09, 0x0A, 0x0B, 0x0C, 0x11, 0x12]

/-- Where an operation can stand in the micro-ROM. -/
def sites : Instr → List MicroAddr
  | .wait => [0x00]
  | .init => [0x01]
  | .bfw t => if t = 0x0F then [0x02] else []
  | .halt => [0x0E]
  | .ldw => [0x0F]
  | .jmp t => if t = 0x02 then [0x14] else []
  | .call t => if t = 0x15 then callSites else []
  | .ret => [0x23]
  | .ldp | .xorm _ | .xori _ _ | .add _ _ | .rotl _ _ | .xor _ _ | .red => straightSites

/-- Found by reading all 64 words. -/
theorem mem_sites_of_instrOf : ∀ a, ∀ i ∈ instrOf (decode (romAt microRom a)), a ∈ sites i := by decide

theorem mem_sites {a : MicroAddr} {i : Instr} (h : decode (romAt microRom a) = .instr i) : a ∈ sites i :=
  mem_sites_of_instrOf a i (by rw [h]; rfl)

theorem instrOf_eq_some {d : Decoded} {i : Instr} (h : instrOf d = some i) : d = .instr i := by
  cases d with
  | instr j => exact congrArg Decoded.instr (Option.some.inj h)
  | reserved why => cases h

theorem instrOf_isSome_microRom : ∀ a : MicroAddr, a.toNat ≤ 0x23 → (instrOf (decode (romAt microRom a))).isSome := by
  decide

/-- Every implemented address holds an instruction (R105). -/
theorem decode_microRom_implemented {a : MicroAddr} (h : a.toNat ≤ 0x23) :
    ∃ i, decode (romAt microRom a) = .instr i := by
  obtain ⟨i, hi⟩ := Option.isSome_iff_exists.mp (instrOf_isSome_microRom a h)
  exact ⟨i, instrOf_eq_some hi⟩

theorem romAt_microRom_eq_encode_wait_iff : ∀ {a : MicroAddr}, romAt microRom a = encode .wait ↔ a = 0x00 := by decide

theorem romAt_microRom_eq_encode_halt_iff : ∀ {a : MicroAddr}, romAt microRom a = encode .halt ↔ a = 0x0E := by decide

theorem romAt_microRom_eq_encode_ret_iff : ∀ {a : MicroAddr}, romAt microRom a = encode .ret ↔ a = 0x23 := by decide

theorem bfw_in_microRom_iff {a t : MicroAddr} :
    decode (romAt microRom a) = .instr (.bfw t) ↔ a = 0x02 ∧ t = 0x0F := by
  constructor
  · intro h
    simpa [sites, and_comm] using mem_sites h
  · rintro ⟨rfl, rfl⟩
    decide

theorem jmp_in_microRom_iff {a t : MicroAddr} :
    decode (romAt microRom a) = .instr (.jmp t) ↔ a = 0x14 ∧ t = 0x02 := by
  constructor
  · intro h
    simpa [sites, and_comm] using mem_sites h
  · rintro ⟨rfl, rfl⟩
    decide

theorem decode_microRom_callSites : ∀ a ∈ callSites, decode (romAt microRom a) = .instr (.call 0x15) := by decide

theorem call_in_microRom_iff {a t : MicroAddr} :
    decode (romAt microRom a) = .instr (.call t) ↔ t = 0x15 ∧ a ∈ callSites := by
  constructor
  · intro h
    simpa [sites] using mem_sites h
  · rintro ⟨rfl, ha⟩
    exact decode_microRom_callSites a ha

@[simp] theorem nextTurn_rom (s : State) : (nextTurn s).2.rom = s.rom := by rw [nextTurn_frame]

theorem hostStep_rom {h : HostStep} {s t : State} (e : hostStep h s = .next t) : t.rom = s.rom := by
  by_cases hr : h = .reset
  · subst hr
    cases e
    rfl
  · rw [hostStep_frame e hr]

/-- No step of either agent writes the micro-ROM (R83). -/
theorem step_rom {s t : State} (e : step s = .next t) : t.rom = s.rom := by
  rcases step_next e with ⟨-, he⟩ | ⟨h, -, he⟩
  · obtain ⟨i, w⟩ := engineStep_writes he
    obtain ⟨hrom, -⟩ := w.outside
    rw [hrom, nextTurn_rom]
  · rw [hostStep_rom he, nextTurn_rom]

/-- The ENGINE's turn with its instruction given. -/
theorem step_of_decode {s : State} {i : Instr} (ht : Safety.engineTurn s = true) (h : decode (fetch s) = .instr i) :
    step s = exec i (nextTurn s).2 := by
  rw [step_of_engineTurn ht]
  exact engineStep_of_decode (by rw [fetch_nextTurn, h])

theorem engineTurn_nil {s : State} (h : s.schedule = []) : Safety.engineTurn s = true := by
  rw [Safety.engineTurn, nextTurn_nil h]
  rfl

theorem engineTurn_cons {s : State} {rest : List Turn} (h : s.schedule = .engine :: rest) :
    Safety.engineTurn s = true := by
  rw [Safety.engineTurn, nextTurn_cons h]
  rfl

end Sys2Proof.Machine

namespace Sys2Proof.Certificates

open Sys2Proof Sys2Proof.Machine Sys2Proof.Safety

/-- Settles O6: the ENGINE's step decodes the word at upc, which taking the turn off the schedule leaves. -/
theorem stepPerformsTheDecodedWord : Obligations.StepPerformsTheDecodedWord := by
  refine ⟨fun s i hs hd => ?_, fun s i rest hs hd => ?_, fun s why ht hd => ?_, fun s w i hw => ?_⟩
  · rw [step_of_decode (engineTurn_nil hs) hd, nextTurn_nil hs]
  · rw [step_of_decode (engineTurn_cons hs) hd, nextTurn_cons hs]
  · rw [step_of_engineTurn ht]
    exact engineStep_of_reserved (by rw [fetch_nextTurn, hd])
  · have hturn : engineTurn (s.withFetchWord 16 w) = true := by
      rw [engineTurn, State.withFetchWord, nextTurn_withControlWord]
      rfl
    refine step_of_decode hturn ?_
    rw [State.withFetchWord, fetch_withControlWord]
    exact instrOf_eq_some hw

/-- Settles O8: LDW and LDP are stuck when their read is outside the buffer, and nothing else reads. -/
theorem engineStopsOnlyWhenAReadIsOutside : Obligations.EngineStopsOnlyWhenAReadIsOutside := by
  intro s i hd
  rw [engineStep_of_decode hd]
  split
  case isTrue h =>
    rcases h with ⟨rfl, hout⟩ | ⟨rfl, hout⟩
    · exact exec_ldw_outside hout
    · exact exec_ldp_outside hout
  case isFalse h =>
    obtain ⟨hw, hp⟩ := not_or.mp h
    by_cases hldw : i = .ldw
    · subst hldw
      exact exec_ldw_inside (Nat.not_lt.mp fun hout => hw ⟨rfl, hout⟩)
    · by_cases hldp : i = .ldp
      · subst hldp
        exact ⟨_, exec_ldp_inside (Nat.not_lt.mp fun hout => hp ⟨rfl, hout⟩)⟩
      · exact exec_next_of_no_load hldw hldp s

/-- Settles O9: the table is read address by address, and no step writes the micro-ROM. -/
theorem microRomIsTheListing : Obligations.MicroRomIsTheListing :=
  ⟨rfl, by decide, by decide, by decide, fun _ _ => step_rom⟩

/-- Settles O26, by the two values of BUSY. -/
theorem waitHoldsUntilBusy : Obligations.WaitHoldsUntilBusy := by
  refine ⟨rfl, fun _ => romAt_microRom_eq_encode_wait_iff, fun s hb => ?_, fun s hb => ?_⟩
  · rw [exec, execWait, if_pos hb]
    rfl
  · rw [exec, execWait, hb]
    rfl

/-- Settles O27, by HALT's one address and its next state. -/
theorem haltSetsDoneAndReturnsToIdle : Obligations.HaltSetsDoneAndReturnsToIdle :=
  ⟨rfl, fun _ => romAt_microRom_eq_encode_halt_iff, fun _ => rfl⟩

/-- Settles O29, by JMP's one place in the micro-ROM and its next state. -/
theorem jmpSetsUpcOnly : Obligations.JmpSetsUpcOnly :=
  ⟨packWord_b 0xD, fun _ _ => jmp_in_microRom_iff, fun _ _ => rfl⟩

/-- Settles O30: the sum of two addresses is their sum modulo 64. -/
theorem callLinksTheNextAddress : Obligations.CallLinksTheNextAddress := by
  refine ⟨packWord_b 0xE, fun _ _ => call_in_microRom_iff, fun t s => ?_⟩
  have hlink : s.upc + 1 = BitVec.ofNat 6 ((s.upc.toNat + 1) % 64) := by
    apply BitVec.eq_of_toNat_eq
    simp
  rw [← hlink]
  rfl

/-- Settles O39: START is accepted, and DONE = 0 hides digest. -/
theorem startHidesTheOldDigest : Obligations.StartHidesTheOldDigest := fun s _ hidle hval =>
  ⟨_, hostStep_start hidle hval, rfl,
    hostStep_read_target (r := .digest) rfl { s with busy := true, done := false }⟩

/-- Settles O56: after the accepted START only engine steps are due, and the started hash runs to its HALT. -/
theorem startedHashGivesTheDigest : Obligations.StartedHashGivesTheDigest := by
  intro s val hr hidle hu hb hval hs
  have hstart : step s = .next { s with schedule := [], busy := true, done := false } :=
    (step_turn hs).trans (hostStep_start hidle hval)
  rw [Nat.add_comm, run_step hstart]
  exact run_hash (s := { s with schedule := [], busy := true, done := false }) hr rfl rfl hu hb

end Sys2Proof.Certificates
end

section
/-! SUPPORT. The statements of the family 45_sequencer about the invariant (R203, R206, R212) and the step count (R213,
R214). Every engine step of a hash in progress is one of ten moves of the control registers; each move keeps the
conditions of R212 and takes one off the steps that remain. -/

namespace Sys2Proof.Machine

/-- The control registers with another upc. -/
def Control.goto (c : Control) (a : MicroAddr) : Control := { c with upc := a }

theorem Control.goto_next (c : Control) {a : MicroAddr} (h : c.upc = a) : c.goto (c.upc + 1) = c.goto (a + 1) := by
  rw [h]

/-- An idle engine holds at WAIT (R201, R212 item 2). -/
theorem engineStep_idle_upc {s t : State} (hr : s.rom = microRom) (hb : s.busy = false) (hu : s.upc = 0x00)
    (e : engineStep s = .next t) : t.upc = 0x00 := by
  have hwait : decode (fetch s) = .instr .wait := by
    rw [fetch, hr, hu]
    decide
  rw [engineStep_of_decode hwait, exec, execWait, hb] at e
  exact Host.Outcome.next.inj e ▸ hu

end Sys2Proof.Machine

namespace Sys2Proof.Safety

open Sys2Proof.Machine

/-! ### The moves of a hash in progress (R201 to R207) -/

/-- What an engine step of a hash in progress can make of the control registers, the micro-ROM being that of R207. -/
inductive Moves (s t : State) : Prop where
  | wait (hu : s.upc = 0x00) (hc : controlOf t = (controlOf s).goto 0x01)
  | init (hu : s.upc = 0x01) (hc : controlOf t = { controlOf s with ptr := 0 }.goto 0x02)
  | bfwTaken (hu : s.upc = 0x02) (hw : 8 ≤ (s.inlen - s.ptr).toNat) (hc : controlOf t = (controlOf s).goto 0x0F)
  | bfwDone (hu : s.upc = 0x02) (hw : (s.inlen - s.ptr).toNat < 8) (hc : controlOf t = (controlOf s).goto 0x03)
  | ldw (hu : s.upc = 0x0F) (hc : controlOf t = { controlOf s with ptr := s.ptr + 8 }.goto 0x10)
  | jmp (hu : s.upc = 0x14) (hc : controlOf t = (controlOf s).goto 0x02)
  | call (hu : s.upc ∈ callSites) (hc : controlOf t = { controlOf s with lr := s.upc + 1 }.goto 0x15)
  | ret (hu : s.upc = 0x23) (hc : controlOf t = (controlOf s).goto s.lr)
  | straight (hu : s.upc ∈ straightSites) (hc : controlOf t = (controlOf s).goto (s.upc + 1))
  | halt (hu : s.upc = 0x0E) (hc : controlOf t = { controlOf s with busy := false }.goto 0x00)

/-- By the instruction that stands at upc. -/
theorem moves_of_engineStep {s t : State} (hr : s.rom = microRom) (hb : s.busy = true) (e : engineStep s = .next t) :
    Moves s t := by
  obtain ⟨i, hi, he⟩ := engineStep_next e
  have hc : controlOf t = (controlOf s).after i := controlOf_exec he
  have hsite : s.upc ∈ sites i := mem_sites (by rw [← hi, fetch, hr])
  cases i with
  | wait =>
    have hu : s.upc = 0x00 := List.mem_singleton.mp hsite
    exact .wait hu (hc.trans ((if_pos hb).trans (Control.goto_next (controlOf s) hu)))
  | init =>
    have hu : s.upc = 0x01 := List.mem_singleton.mp hsite
    exact .init hu (hc.trans (Control.goto_next { controlOf s with ptr := 0 } hu))
  | ldw =>
    have hu : s.upc = 0x0F := List.mem_singleton.mp hsite
    exact .ldw hu (hc.trans (Control.goto_next { controlOf s with ptr := s.ptr + 8 } hu))
  | bfw a =>
    obtain ⟨rfl, hu⟩ : a = 0x0F ∧ s.upc = 0x02 := by simpa [sites] using hsite
    by_cases hw : 8 ≤ (s.inlen - s.ptr).toNat
    · exact .bfwTaken hu hw (hc.trans (if_pos hw))
    · exact .bfwDone hu (Nat.not_le.mp hw) (hc.trans ((if_neg hw).trans (Control.goto_next (controlOf s) hu)))
  | jmp a =>
    obtain ⟨rfl, hu⟩ : a = 0x02 ∧ s.upc = 0x14 := by simpa [sites] using hsite
    exact .jmp hu hc
  | call a =>
    obtain ⟨rfl, hu⟩ : a = 0x15 ∧ s.upc ∈ callSites := by simpa [sites] using hsite
    exact .call hu hc
  | ret => exact .ret (List.mem_singleton.mp hsite) hc
  | halt => exact .halt (List.mem_singleton.mp hsite) hc
  | ldp | xorm | xori | add | rotl | xor | red => exact .straight hsite hc

/-! ### The conditions of R212 by address -/

/-- The addresses after INIT at which R212 asks nothing of how much of the message remains. -/
def anyLength (a : MicroAddr) : Bool := decide (0x02 ≤ a.toNat ∧ a.toNat ≤ 0x23) && a != 0x03 && a != 0x0F

theorem ne_start_of_anyLength : ∀ {a : MicroAddr}, anyLength a = true → a ≠ 0 ∧ a ≠ 1 := by decide

theorem straightSites_next : ∀ a ∈ straightSites,
    (a ≠ 0 ∧ a ≠ 1) ∧ anyLength (a + 1) = true ∧ inRound (a + 1) = inRound a := by
  decide

theorem straightSites_toNat : ∀ a ∈ straightSites, (a + 1).toNat = a.toNat + 1 ∧ a.toNat < 0x23 := by decide

theorem callSites_next : ∀ a ∈ callSites, ((a ≠ 0 ∧ a ≠ 1) ∧ inRound a = false) ∧ a + 1 ∈ returnAddrs := by decide

theorem returnAddrs_outside : ∀ a ∈ returnAddrs, anyLength a = true ∧ inRound a = false := by decide

theorem ne_start_of_inRound : ∀ {a : MicroAddr}, inRound a = true → a ≠ 0 ∧ a ≠ 1 := by decide

/-- ptr is at a word of the message or after the last (R212 items 3 and 4). -/
def PtrInMessage (s : State) : Prop := s.ptr.toNat % 8 = 0 ∧ s.ptr.toNat ≤ s.inlen.toNat - s.inlen.toNat % 8

theorem PtrInMessage.of_eq {s t : State} (h : PtrInMessage s) (hp : t.ptr = s.ptr) (hi : t.inlen = s.inlen) :
    PtrInMessage t := by
  rw [PtrInMessage, hp, hi]
  exact h

/-- With ptr inside the message the subtraction of R203 does not wrap. -/
theorem PtrInMessage.remaining {s : State} (h : PtrInMessage s) :
    (s.inlen - s.ptr).toNat = s.inlen.toNat - s.ptr.toNat :=
  BitVec.toNat_sub_of_le (h.2.trans (Nat.sub_le ..))

/-- With no full word left ptr is after the full words. -/
theorem PtrInMessage.eq_tail {s : State} (h : PtrInMessage s) (hw : (s.inlen - s.ptr).toNat < 8) :
    s.ptr.toNat = 8 * (s.inlen.toNat / 8) := by
  rw [h.remaining] at hw
  obtain ⟨haligned, hbound⟩ := h
  omega

theorem ptr_add_eight {s : State} (hw : s.ptr.toNat + 8 ≤ s.inlen.toNat) : (s.ptr + 8).toNat = s.ptr.toNat + 8 := by
  have hlen : s.inlen.toNat < 2 ^ 64 := s.inlen.isLt
  exact BitVec.toNat_add_of_lt (by simpa using hw.trans_lt hlen)

/-- LDW of a full word leaves ptr inside the message. -/
theorem PtrInMessage.of_ldw {s t : State} (h : PtrInMessage s) (hw : s.ptr.toNat + 8 ≤ s.inlen.toNat)
    (hp : t.ptr = s.ptr + 8) (hi : t.inlen = s.inlen) : PtrInMessage t := by
  obtain ⟨haligned, hbound⟩ := h
  rw [PtrInMessage, hp, hi, ptr_add_eight hw]
  omega

/-- Once INIT ran, up to HALT, ptr is inside the message. -/
theorem Sequenced.ptrInMessage {s : State} (h : Sequenced s) {a : MicroAddr} (hu : s.upc = a) (ha : a ≠ 0 ∧ a ≠ 1) :
    PtrInMessage s := by
  subst hu
  obtain ⟨h0, h1⟩ := ha
  have hb : s.busy = true := h.busy_of_upc_ne h0
  exact ⟨h.ptrAligned hb h0 h1, h.ptrBounded hb h0 h1⟩

/-- At WAIT and at INIT R212 asks nothing of ptr, lr and the length. -/
theorem Sequenced.of_start {s : State} (hn : ¬(s.busy = true ∧ s.done = true)) (hu : s.upc = 0 ∨ s.upc = 1)
    (hi : s.busy = false → s.upc = 0) : Sequenced s where
  implemented := by rcases hu with h | h <;> rw [h] <;> decide
  idleAtZero := hi
  notBoth := hn
  ptrAligned _ h0 h1 := absurd hu (not_or.mpr ⟨h0, h1⟩)
  ptrBounded _ h0 h1 := absurd hu (not_or.mpr ⟨h0, h1⟩)
  wordRemains h := by rw [h] at hu; exact absurd hu (by decide)
  ptrAtPadding h := by rw [h] at hu; exact absurd hu (by decide)
  linked h := absurd hu (not_or.mpr (ne_start_of_inRound h))

/-- After INIT: what R212 asks of ptr everywhere, and what it asks at LDW, at LDP and inside RND. -/
theorem Sequenced.of_hash {s : State} (hn : ¬(s.busy = true ∧ s.done = true)) (hb : s.busy = true)
    (hp : PtrInMessage s) (hu : s.upc.toNat ≤ 0x23) (hldw : s.upc = 0x0F → 8 ≤ s.inlen.toNat - s.ptr.toNat)
    (hldp : s.upc = 0x03 → s.ptr.toNat = 8 * (s.inlen.toNat / 8)) (hl : inRound s.upc = true → s.lr ∈ returnAddrs) :
    Sequenced s where
  implemented := hu
  idleAtZero hidle := Bool.noConfusion (hidle.symm.trans hb)
  notBoth := hn
  ptrAligned _ _ _ := hp.1
  ptrBounded _ _ _ := hp.2
  wordRemains := hldw
  ptrAtPadding := hldp
  linked := hl

/-- Where R212 asks nothing of the length, ptr inside the message and the link are enough. -/
theorem Sequenced.of_anyLength {s : State} (hn : ¬(s.busy = true ∧ s.done = true)) (hb : s.busy = true)
    (hp : PtrInMessage s) (ha : anyLength s.upc = true) (hl : inRound s.upc = true → s.lr ∈ returnAddrs) :
    Sequenced s := by
  obtain ⟨⟨⟨-, hu⟩, hldp⟩, hldw⟩ : ((2 ≤ s.upc.toNat ∧ s.upc.toNat ≤ 0x23) ∧ s.upc ≠ 0x03) ∧ s.upc ≠ 0x0F := by
    simpa [anyLength] using ha
  exact .of_hash hn hb hp hu (absurd · hldw) (absurd · hldp) hl

/-- R212 speaks of the control registers and DONE only. -/
theorem Sequenced.congr {s t : State} (h : Sequenced s) (hc : controlOf t = controlOf s) (hd : t.done = s.done) :
    Sequenced t := by
  obtain ⟨hu, hl, hi, hp, hb, -⟩ := Control.mk.inj hc
  obtain ⟨himplemented, hidle, hboth, haligned, hbounded, hldw, hldp, hlinked⟩ := h
  constructor <;> simpa only [hu, hl, hi, hp, hb, hd]

/-! ### Each move keeps them -/

theorem Moves.sequenced {s t : State} (m : Moves s t) (h : Sequenced s) (hb : s.busy = true)
    (hn : ¬(t.busy = true ∧ t.done = true)) : Sequenced t := by
  cases m with
  | wait hu hc =>
    obtain ⟨hu', -, -, -, hb', -⟩ := Control.mk.inj hc
    exact .of_start hn (.inr hu') fun hidle => Bool.noConfusion (hidle.symm.trans (hb'.trans hb))
  | init hu hc =>
    obtain ⟨hu', -, -, hp', hb', -⟩ := Control.mk.inj hc
    have hp : PtrInMessage t := by simp [PtrInMessage, hp']
    exact .of_anyLength hn (hb'.trans hb) hp (hu' ▸ rfl) (by simp [hu', inRound])
  | bfwTaken hu hw hc =>
    obtain ⟨hu', -, hi', hp', hb', -⟩ := Control.mk.inj hc
    have hp : PtrInMessage s := h.ptrInMessage hu (by decide)
    have hldw : 8 ≤ t.inlen.toNat - t.ptr.toNat := by
      rw [hp', hi']
      exact hp.remaining ▸ hw
    exact .of_hash hn (hb'.trans hb) (hp.of_eq hp' hi') (by simp [hu']) (fun _ => hldw) (by simp [hu'])
      (by simp [hu', inRound])
  | bfwDone hu hw hc =>
    obtain ⟨hu', -, hi', hp', hb', -⟩ := Control.mk.inj hc
    have hp : PtrInMessage s := h.ptrInMessage hu (by decide)
    have hldp : t.ptr.toNat = 8 * (t.inlen.toNat / 8) := by
      rw [hp', hi']
      exact hp.eq_tail hw
    exact .of_hash hn (hb'.trans hb) (hp.of_eq hp' hi') (by simp [hu']) (by simp [hu']) (fun _ => hldp)
      (by simp [hu', inRound])
  | ldw hu hc =>
    obtain ⟨hu', -, hi', hp', hb', -⟩ := Control.mk.inj hc
    have hp : PtrInMessage s := h.ptrInMessage hu (by decide)
    obtain ⟨hword, -⟩ := h.at_ldw hu
    exact .of_anyLength hn (hb'.trans hb) (hp.of_ldw hword hp' hi') (hu' ▸ rfl) (by simp [hu', inRound])
  | jmp hu hc =>
    obtain ⟨hu', -, hi', hp', hb', -⟩ := Control.mk.inj hc
    have hp : PtrInMessage s := h.ptrInMessage hu (by decide)
    exact .of_anyLength hn (hb'.trans hb) (hp.of_eq hp' hi') (hu' ▸ rfl) (by simp [hu', inRound])
  | call hu hc =>
    obtain ⟨hu', hl', hi', hp', hb', -⟩ := Control.mk.inj hc
    obtain ⟨⟨hstart, -⟩, hlink⟩ := callSites_next _ hu
    exact .of_anyLength hn (hb'.trans hb) ((h.ptrInMessage rfl hstart).of_eq hp' hi') (hu' ▸ rfl) fun _ => hl' ▸ hlink
  | ret hu hc =>
    obtain ⟨hu', -, hi', hp', hb', -⟩ := Control.mk.inj hc
    have hp : PtrInMessage s := h.ptrInMessage hu (by decide)
    obtain ⟨hany, hout⟩ := returnAddrs_outside _ (h.linked (hu ▸ rfl))
    exact .of_anyLength hn (hb'.trans hb) (hp.of_eq hp' hi') (hu' ▸ hany) (by simp [hu', hout])
  | straight hu hc =>
    obtain ⟨hu', hl', hi', hp', hb', -⟩ := Control.mk.inj hc
    obtain ⟨hstart, hany, hround⟩ := straightSites_next _ hu
    refine .of_anyLength hn (hb'.trans hb) ((h.ptrInMessage rfl hstart).of_eq hp' hi') (hu' ▸ hany) fun hin => ?_
    exact hl' ▸ h.linked (hround ▸ hu' ▸ hin)
  | halt hu hc =>
    obtain ⟨hu', -⟩ := Control.mk.inj hc
    exact .of_start hn (.inl hu') fun _ => hu'

theorem Sequenced.onTurn {s : State} (h : Sequenced s) : Sequenced (nextTurn s).2 :=
  h.congr (by rw [nextTurn_frame]; rfl) (nextTurn_done s)

theorem Sequenced.of_engineStep {s t : State} (h : Sequenced s) (hr : s.rom = microRom)
    (hn : ¬(t.busy = true ∧ t.done = true)) (e : engineStep s = .next t) : Sequenced t := by
  cases hb : s.busy
  · have hu : t.upc = 0 := engineStep_idle_upc hr hb (h.idleAtZero hb) e
    exact .of_start hn (.inl hu) fun _ => hu
  · exact (moves_of_engineStep hr hb e).sequenced h hb hn

/-- The host's steps leave a hash in progress alone or send it to address 0, where an idle engine is. -/
theorem Sequenced.of_hostStep {h : HostStep} {s t : State} (hs : Sequenced s) (hn : ¬(t.busy = true ∧ t.done = true))
    (e : hostStep h s = .next t) : Sequenced t := by
  by_cases hreset : h = .reset
  · subst hreset
    cases e
    exact .of_start hn (.inl rfl) fun _ => rfl
  · cases hb : s.busy
    · have hu : t.upc = 0 := by
        rw [hostStep_frame e hreset]
        exact hs.idleAtZero hb
      exact .of_start hn (.inl hu) fun _ => hu
    · rw [hostStep_busy_frame hb hreset e]
      exact hs.congr rfl rfl

theorem Sequenced.of_step {s t : State} (h : Sequenced s) (hr : s.rom = microRom) (e : step s = .next t) :
    Sequenced t := by
  have hn : ¬(t.busy = true ∧ t.done = true) := Certificates.busyAndDoneNeverMeet s t h.notBoth e
  rcases step_next e with ⟨-, he⟩ | ⟨x, -, he⟩
  · exact h.onTurn.of_engineStep ((nextTurn_rom s).trans hr) hn he
  · exact h.onTurn.of_hostStep hn he

/-! ### The reads of a hash whose message fits the buffer (R71, R214) -/

theorem Sequenced.reads_inside {s : State} {i : Instr} (h : Sequenced s) (hr : s.rom = microRom)
    (hb : s.inlen.toNat ≤ s.buflen) (hd : decode (fetch s) = .instr i) :
    ¬((i = .ldw ∧ s.buflen < s.ptr.toNat + 8) ∨ (i = .ldp ∧ s.buflen < s.ptr.toNat + s.inlen.toNat % 8)) := by
  have hword : romAt microRom s.upc = encode i := by rw [decode_eq_instr_iff.mp hd, fetch, hr]
  rintro (⟨rfl, hout⟩ | ⟨rfl, hout⟩)
  · obtain ⟨hin, -⟩ := h.at_ldw (romAt_microRom_eq_encode_ldw_iff.mp hword)
    omega
  · have hptr : s.ptr.toNat = 8 * (s.inlen.toNat / 8) := h.ptrAtPadding (romAt_microRom_eq_encode_ldp_iff.mp hword)
    omega

/-! ### The steps that remain (R213) -/

theorem stepsFrom_zero_le (a : MicroAddr) (n : Nat) : stepsFrom a 0 ≤ stepsFrom a n := by
  unfold stepsFrom
  split <;> omega

theorem stepsFrom_zero_pos : ∀ a : MicroAddr, a.toNat ≤ 0x23 → inRound a = false → 0 < stepsFrom a 0 := by decide

theorem stepsFrom_pos {a : MicroAddr} (n : Nat) (hu : a.toNat ≤ 0x23) (ho : inRound a = false) : 0 < stepsFrom a n :=
  (stepsFrom_zero_pos a hu ho).trans_le (stepsFrom_zero_le a n)

/-- CALL RND, the fifteen steps of RND, and on from the return address. -/
theorem stepsFrom_call (n : Nat) : ∀ a ∈ callSites, stepsFrom a n = 16 + stepsFrom (a + 1) n := by
  simp +arith [callSites, stepsFrom]

theorem stepsFrom_straight (n : Nat) :
    ∀ a ∈ straightSites, inRound a = false → stepsFrom a n = stepsFrom (a + 1) n + 1 := by
  simp +arith [straightSites, stepsFrom, inRound]

section
variable {s : State} (hb : s.busy = true)
include hb

theorem stepsLeft_of_inRound (h : inRound s.upc = true) :
    stepsLeft s = (0x24 - s.upc.toNat) + stepsFrom s.lr (wordsLeft s) := by
  rw [stepsLeft, if_neg (by simp [hb]), if_pos h, wordsToCome, if_neg (not_or.mpr (ne_start_of_inRound h))]

theorem stepsLeft_at {a : MicroAddr} (hu : s.upc = a) (ha : (a ≠ 0 ∧ a ≠ 1) ∧ inRound a = false) :
    stepsLeft s = stepsFrom a (wordsLeft s) := by
  subst hu
  obtain ⟨hstart, hout⟩ := ha
  rw [stepsLeft, if_neg (by simp [hb]), if_neg (by simp [hout]), wordsToCome, if_neg (not_or.mpr hstart)]

theorem stepsLeft_at_wait (hu : s.upc = 0) : stepsLeft s = 105 + 37 * (s.inlen.toNat / 8) := by
  rw [stepsLeft, if_neg (by simp [hb]), hu, if_neg (by decide), wordsToCome, if_pos (.inl hu)]
  rfl

theorem stepsLeft_at_init (hu : s.upc = 1) : stepsLeft s = 104 + 37 * (s.inlen.toNat / 8) := by
  rw [stepsLeft, if_neg (by simp [hb]), hu, if_neg (by decide), wordsToCome, if_pos (.inr hu)]
  rfl

end

theorem wordsLeft_congr {s t : State} (hp : t.ptr = s.ptr) (hi : t.inlen = s.inlen) : wordsLeft t = wordsLeft s := by
  rw [wordsLeft, hp, hi, wordsLeft]

theorem wordsLeft_of_init {s t : State} (hp : t.ptr = 0) (hi : t.inlen = s.inlen) :
    wordsLeft t = s.inlen.toNat / 8 := by
  simp [wordsLeft, hp, hi]

theorem wordsLeft_of_ldw {s t : State} (hw : s.ptr.toNat + 8 ≤ s.inlen.toNat) (hp : t.ptr = s.ptr + 8)
    (hi : t.inlen = s.inlen) : wordsLeft s = wordsLeft t + 1 := by
  have hs : (s.inlen - s.ptr).toNat = s.inlen.toNat - s.ptr.toNat := BitVec.toNat_sub_of_le (Nat.le_of_add_right_le hw)
  have ht : (t.inlen - t.ptr).toNat = s.inlen.toNat - (s.ptr.toNat + 8) := by
    rw [hp, hi, ← ptr_add_eight hw]
    exact BitVec.toNat_sub_of_le ((ptr_add_eight hw).trans_le hw)
  rw [wordsLeft, wordsLeft, hs, ht]
  omega

theorem wordsLeft_eq_zero {s : State} (hw : (s.inlen - s.ptr).toNat < 8) : wordsLeft s = 0 :=
  Nat.div_eq_of_lt hw

theorem stepsLeft_idle {s : State} (h : s.busy = false) : stepsLeft s = 0 := if_pos h

theorem stepsLeft_pos {s : State} (h : Sequenced s) (hb : s.busy = true) : 0 < stepsLeft s := by
  cases hin : inRound s.upc
  · by_cases h0 : s.upc = 0
    · rw [stepsLeft_at_wait hb h0]
      omega
    · by_cases h1 : s.upc = 1
      · rw [stepsLeft_at_init hb h1]
        omega
      · rw [stepsLeft_at hb rfl ⟨⟨h0, h1⟩, hin⟩]
        exact stepsFrom_pos _ h.implemented hin
  · rw [stepsLeft_of_inRound hb hin]
    have hu : s.upc.toNat ≤ 0x23 := h.implemented
    omega

theorem Moves.stepsLeft_eq {s t : State} (m : Moves s t) (h : Sequenced s) (hb : s.busy = true) :
    stepsLeft s = stepsLeft t + 1 := by
  cases m with
  | wait hu hc =>
    obtain ⟨hu', -, hi', -, hb', -⟩ := Control.mk.inj hc
    have hinlen : t.inlen = s.inlen := hi'
    rw [stepsLeft_at_wait hb hu, stepsLeft_at_init (hb'.trans hb) hu', hinlen]
    omega
  | init hu hc =>
    obtain ⟨hu', -, hi', hp', hb', -⟩ := Control.mk.inj hc
    rw [stepsLeft_at_init hb hu, stepsLeft_at (hb'.trans hb) hu' (by decide), wordsLeft_of_init hp' hi']
    simp +arith [stepsFrom]
  | bfwTaken hu _ hc =>
    obtain ⟨hu', -, hi', hp', hb', -⟩ := Control.mk.inj hc
    rw [stepsLeft_at hb hu (by decide), stepsLeft_at (hb'.trans hb) hu' (by decide), wordsLeft_congr hp' hi']
    simp +arith [stepsFrom]
  | bfwDone hu hw hc =>
    obtain ⟨hu', -, -, -, hb', -⟩ := Control.mk.inj hc
    rw [stepsLeft_at hb hu (by decide), stepsLeft_at (hb'.trans hb) hu' (by decide), wordsLeft_eq_zero hw]
    rfl
  | ldw hu hc =>
    obtain ⟨hu', -, hi', hp', hb', -⟩ := Control.mk.inj hc
    obtain ⟨hword, -⟩ := h.at_ldw hu
    rw [stepsLeft_at hb hu (by decide), stepsLeft_at (hb'.trans hb) hu' (by decide), wordsLeft_of_ldw hword hp' hi']
    simp +arith [stepsFrom]
  | jmp hu hc =>
    obtain ⟨hu', -, hi', hp', hb', -⟩ := Control.mk.inj hc
    rw [stepsLeft_at hb hu (by decide), stepsLeft_at (hb'.trans hb) hu' (by decide), wordsLeft_congr hp' hi']
    simp +arith [stepsFrom]
  | call hu hc =>
    obtain ⟨hu', hl', hi', hp', hb', -⟩ := Control.mk.inj hc
    obtain ⟨hout, -⟩ := callSites_next _ hu
    rw [stepsLeft_at hb rfl hout, stepsFrom_call _ _ hu, stepsLeft_of_inRound (hb'.trans hb) (hu' ▸ rfl),
      wordsLeft_congr hp' hi', hl', hu', Nat.add_right_comm]
    rfl
  | ret hu hc =>
    obtain ⟨hu', -, hi', hp', hb', -⟩ := Control.mk.inj hc
    have hin : inRound s.upc = true := hu ▸ rfl
    obtain ⟨hany, hout⟩ := returnAddrs_outside _ (h.linked hin)
    rw [stepsLeft_of_inRound hb hin, stepsLeft_at (hb'.trans hb) hu' ⟨ne_start_of_anyLength hany, hout⟩,
      wordsLeft_congr hp' hi', hu, Nat.add_comm]
    rfl
  | straight hu hc =>
    obtain ⟨hu', hl', hi', hp', hb', -⟩ := Control.mk.inj hc
    obtain ⟨hstart, hany, hround⟩ := straightSites_next _ hu
    cases hin : inRound s.upc
    · rw [stepsLeft_at hb rfl ⟨hstart, hin⟩,
        stepsLeft_at (hb'.trans hb) hu' ⟨ne_start_of_anyLength hany, hround.trans hin⟩,
        wordsLeft_congr hp' hi', stepsFrom_straight _ _ hu hin]
    · obtain ⟨hnext, hlt⟩ := straightSites_toNat _ hu
      have hlink : t.lr = s.lr := hl'
      have hupc : t.upc.toNat = s.upc.toNat + 1 := (congrArg BitVec.toNat hu').trans hnext
      rw [stepsLeft_of_inRound hb hin, stepsLeft_of_inRound (hb'.trans hb) (hu' ▸ hround.trans hin),
        wordsLeft_congr hp' hi', hlink, hupc]
      omega
  | halt hu hc =>
    obtain ⟨-, -, -, -, hb', -⟩ := Control.mk.inj hc
    rw [stepsLeft_at hb hu (by decide), stepsLeft_idle hb']
    rfl

end Sys2Proof.Safety

namespace Sys2Proof.Certificates

open Sys2Proof Sys2Proof.Machine Sys2Proof.Safety

/-- Settles O48: the micro-ROM is never written, a move of either agent keeps the conditions of R212, and the message
stays canonical. -/
theorem everyStepKeepsTheSequencerConditions : Obligations.EveryStepKeepsTheSequencerConditions := fun s t h e =>
  { rom := (step_rom e).trans h.rom
    sequenced := h.sequenced.of_step h.rom e
    message := everyStepKeepsMemoryCanonical s t h.message e }

/-- Settles O57: each move of a hash in progress takes one step off, and a hash in progress has one left. -/
theorem eachEngineStepCountsDown : Obligations.EachEngineStepCountsDown := by
  refine ⟨fun s => stepsLeft_at_wait, fun s t h hb e => (moves_of_engineStep h.rom hb e).stepsLeft_eq h.sequenced hb,
    fun s h => ⟨fun hzero => ?_, stepsLeft_idle⟩⟩
  exact Bool.eq_false_iff.mpr fun hb => (stepsLeft_pos h.sequenced hb).ne' hzero

/-- Settles O28: where BFW stands ptr is inside the message, so the subtraction does not wrap. -/
theorem bfwBranchesOnAFullWord : Obligations.BfwBranchesOnAFullWord := by
  refine ⟨packWord_b 0xC, fun _ _ => bfw_in_microRom_iff, fun t s hw => ?_, fun t s hw => ?_, fun s h hu => ?_⟩
  · rw [exec, execBfw, if_pos ((fullWordRemains_iff s).mpr hw)]
    rfl
  · rw [exec, execBfw, if_neg fun hfull => (Nat.not_le.mpr hw) ((fullWordRemains_iff s).mp hfull)]
    rfl
  · obtain ⟨haligned, hbound⟩ := h.sequenced.ptrInMessage hu (by decide)
    have hlen : s.inlen.toNat < 2 ^ 64 := s.inlen.isLt
    exact ⟨haligned, hbound, by omega⟩

/-- Settles O58: an implemented address holds an instruction, and where LDW and LDP stand the bytes they read are below
inlen. -/
theorem engineAlwaysStepsWithinTheBuffer : Obligations.EngineAlwaysStepsWithinTheBuffer := by
  intro s h hb ht
  obtain ⟨i, hi⟩ := decode_microRom_implemented h.sequenced.implemented
  have hd : decode (fetch (nextTurn s).2) = .instr i := by rw [fetch_nextTurn, fetch, h.rom, hi]
  have hstep := engineStopsOnlyWhenAReadIsOutside _ i hd
  rw [if_neg (h.sequenced.onTurn.reads_inside ((nextTurn_rom s).trans h.rom) (by simpa using hb) hd)] at hstep
  rwa [step_of_engineTurn ht]

/-- Settles O31: RND, where RET stands, is entered by a CALL only. -/
theorem retGoesToTheLink : Obligations.RetGoesToTheLink :=
  ⟨rfl, fun _ => romAt_microRom_eq_encode_ret_iff, fun _ => rfl, fun _ h hu => h.sequenced.linked (hu ▸ rfl)⟩

/-- Settles O47: reset is idle at address 0, with nothing placed. -/
theorem resetMeetsTheSequencerConditions : Obligations.ResetMeetsTheSequencerConditions where
  rom := rfl
  sequenced := .of_start (by decide) (.inl rfl) fun _ => rfl
  message := ⟨rfl, rfl, le_rfl⟩

end Sys2Proof.Certificates
end

section
/-! SUPPORT. The statement of the family 60_exceptions: the output done_o changes only by HALT, an accepted START or the
reset input (R243). -/

namespace Sys2Proof.Machine

/-- An engine step that changes DONE performed HALT, which sets it (R202). -/
theorem engineStep_done_ne {s t : State} (e : engineStep s = .next t) (hne : t.done ≠ s.done) :
    decode (fetch s) = .instr .halt ∧ t.done = true := by
  obtain ⟨i, hi, he⟩ := engineStep_next e
  rcases (writes_of_exec he).flags with ⟨-, hkeep⟩ | ⟨rfl, -, hset⟩
  · exact absurd hkeep hne
  · exact ⟨hi, hset⟩

/-- A register write that changes DONE is an accepted START, which clears it (R209). -/
theorem hostWriteReg_done_ne {s : State} {r : HostReg} {val : Word} (hne : (hostWriteReg s r val).done ≠ s.done) :
    r = .ctrl ∧ val.getLsbD 0 = true ∧ s.busy = false ∧ (hostWriteReg s r val).done = false := by
  rcases hostWriteReg_cases s r val with h | ⟨hidle, ⟨hr, hval, h⟩ | ⟨-, h⟩ | ⟨-, h⟩ | ⟨-, h⟩⟩
  case inr.inl => exact ⟨hr, hval, hidle, by rw [h]⟩
  all_goals exact absurd (by rw [h]) hne

/-- A host step that changes DONE is the reset input or an accepted START, and it clears DONE (R209, R270). -/
theorem hostStep_done_ne {h : HostStep} {s t : State} (e : hostStep h s = .next t) (hne : t.done ≠ s.done) :
    t.done = false ∧
      (h = .reset ∨ ∃ val : Word, h = .write 0x00 8 val ∧ val.getLsbD 0 = true ∧ s.busy = false) := by
  rcases hostStep_next e with ⟨v, rfl⟩ | ⟨off, val, r, hw, hoff, rfl⟩ | ⟨bytes, -, -, -, rfl⟩ | ⟨hreset, rfl⟩
  · exact absurd rfl hne
  · obtain ⟨rfl, hval, hidle, hd⟩ := hostWriteReg_done_ne hne
    obtain rfl := hostRegAt_ctrl hoff
    exact ⟨hd, .inr ⟨val, hw, hval, hidle⟩⟩
  · exact absurd rfl hne
  · exact ⟨rfl, .inl hreset⟩

end Sys2Proof.Machine

namespace Sys2Proof.Certificates

open Sys2Proof Sys2Proof.Machine Sys2Proof.Safety

/-- Settles O44: by the agent whose step it is; taking the turn off the schedule changes neither the flags nor the
control word fetched. -/
theorem doneOutputChangesOnlyByHaltStartReset : Obligations.DoneOutputChangesOnlyByHaltStartReset := by
  refine ⟨fun _ => rfl, fun s t e hne => ?_⟩
  have hne' : t.done ≠ (nextTurn s).2.done := by rwa [nextTurn_done]
  rcases step_next e with ⟨hturn, he⟩ | ⟨h, hturn, he⟩
  · obtain ⟨hhalt, hset⟩ := engineStep_done_ne he hne'
    exact .inl ⟨beq_iff_eq.mpr hturn, fetch_nextTurn s ▸ hhalt, hset⟩
  · obtain ⟨hclear, rfl | ⟨val, rfl, hval, hidle⟩⟩ := hostStep_done_ne he hne'
    · exact .inr ⟨hclear, .inl hturn⟩
    · exact .inr ⟨hclear, .inr ⟨val, hturn, hval, nextTurn_busy s ▸ hidle⟩⟩

end Sys2Proof.Certificates
end

section
/-! SUPPORT. The statements of the family 70_reset_and_hazards: placing a message on an idle machine (R273 step 2) and
the reset input (R270 to R272). -/

namespace Sys2Proof.Machine

/-- An idle machine takes every message whose bytes 64-bit offsets can name (R273 step 2). -/
theorem hostStep_place_idle {s : State} {bytes : List Byte} (hidle : s.busy = false)
    (hlen : bytes.length ≤ Config.offsetSpace) :
    hostStep (.place bytes) s = .next { s with msg := Memory.writeAll [] 0 bytes, buflen := bytes.length } :=
  (if_neg (Bool.eq_false_iff.mp hidle)).trans (if_neg (Nat.not_lt.mpr hlen))

/-- A message placed on empty memory reads back at offsets 0 up. -/
theorem Memory.read_placed {bytes : List Byte} {a : Nat} (ha : a < bytes.length) :
    Memory.read (Memory.writeAll [] 0 bytes) a = bytes[a] := by
  rw [Memory.read_writeAll bytes [] 0 a rfl, if_pos (by omega)]
  simp [ha]

/-- At address 0 of the micro-ROM the engine stands at WAIT. -/
theorem decode_fetch_at_zero {s : State} (hr : s.rom = microRom) (hu : s.upc = 0x00) :
    decode (fetch s) = .instr .wait := by
  rw [fetch, hr, hu]
  decide

end Sys2Proof.Machine

namespace Sys2Proof.Certificates

open Sys2Proof Sys2Proof.Machine Sys2Proof.Safety

/-- Settles O36, by the state the placing step answers and the read-back of the bytes it placed. -/
theorem placedMessageReadsBack : Obligations.PlacedMessageReadsBack := fun _ _ hidle hlen =>
  ⟨_, hostStep_place_idle hidle hlen, rfl,
    fun _ ha => (List.getElem?_eq_getElem ha).trans (congrArg some (Memory.read_placed ha).symm), rfl⟩

/-- Settles O45: the registers are those of the state the reset input answers; with the micro-ROM in place that state
stands at WAIT with BUSY = 0, where the engine holds (R201). -/
theorem resetInputClearsTheSpecifiedRegisters : Obligations.ResetInputClearsTheSpecifiedRegisters := by
  intro s
  refine ⟨s.resetInput, rfl, rfl, rfl, rfl, rfl, rfl, rfl, rfl, rfl, rfl, rfl, rfl, rfl, rfl, fun _ => rfl, fun hr => ?_⟩
  have hwait : decode (fetch s.resetInput) = .instr .wait := decode_fetch_at_zero hr rfl
  obtain ⟨-, -, -, hhold⟩ := waitHoldsUntilBusy
  exact ⟨hwait, (engineStep_of_decode hwait).trans (hhold s.resetInput rfl)⟩

end Sys2Proof.Certificates
end
